-- ==== Sys2Proof/Word.lean ====
section
/-! DEFINITION. The word of the LS-8 core. -/

namespace Sys2Proof

/-- Every register, the PC, every address and every memory cell of the core is 8 bits wide, an
unsigned value 0..255 (00_scope.md R11; 10_state.md R20, R24, R36). Its arithmetic wraps modulo
256 (00_scope.md R13). -/
abbrev Byte := BitVec 8

end Sys2Proof
end

