-- ==== Sys2Proof/Config.lean ====
section
/-! DEFINITION. What the spec leaves open: the timer period, which an implementation fixes
(00_scope.md R6), and what the timer's time base and the keyboard send, which is free
(60_exceptions.md R263, R265). -/

namespace Sys2Proof

/-- TIMER_PERIOD less one. TIMER_PERIOD is an OPEN parameter, "a positive integer" (00_scope.md R6;
60_exceptions.md R262; decision D19): nothing is known of it but that it is positive, so the
constant has no body (log 5). -/
opaque Config.timerPeriodPred : Nat

/-- TIMER_PERIOD: the time-base ticks of one timer event (60_exceptions.md R262). -/
def Config.timerPeriod : Nat := Config.timerPeriodPred + 1

/-- What a device can send the core while an instruction runs: a tick of the timer's time base
(60_exceptions.md R262) or a key pressed (R264). -/
inductive Machine.DeviceInput where
  | tick
  | key (code : Byte)
deriving DecidableEq, Repr

/-- The free draws of 60_exceptions.md R263 and R265, one for each step: the ticks and keys that arrive
during it, oldest first. Nothing is known of any of them, so the constant has no body (log 3). -/
opaque Config.arrivals : Nat → List Machine.DeviceInput

end Sys2Proof
end

