-- ==== Sys2Proof/Syntax.lean ====
section
/-! DEFINITION. The instructions of the LS-8: one constructor per row of spec/opcode_table.json
(30_encoding.md R88), with the operands of its format (R83). -/

namespace Sys2Proof

/-- A general register R0..R7 (10_state.md R20). R7 is the stack pointer (R21) and R5 the interrupt
mask (R22). Exactly eight values, so no instruction can name another register (log 17). -/
inductive Reg where
  | r0 | r1 | r2 | r3 | r4 | r5 | r6 | r7
deriving DecidableEq, Repr

/-- An instruction (30_encoding.md R88). `r` is the register of operand byte 1 in format R; `a` and
`b` are the registers of operand bytes 1 and 2 in format RR (R83). -/
inductive Instr where
  -- format Z
  | nop
  | hlt
  | ret
  | iret
  -- format R
  | push (r : Reg)
  | pop (r : Reg)
  | prn (r : Reg)
  | pra (r : Reg)
  | call (r : Reg)
  | int (r : Reg)
  | jmp (r : Reg)
  | jeq (r : Reg)
  | jne (r : Reg)
  | jgt (r : Reg)
  | jlt (r : Reg)
  | jle (r : Reg)
  | jge (r : Reg)
  | inc (r : Reg)
  | dec (r : Reg)
  | not (r : Reg)
  -- format RI
  | ldi (r : Reg) (imm : Byte)
  -- format RR
  | ld (a b : Reg)
  | st (a b : Reg)
  | add (a b : Reg)
  | sub (a b : Reg)
  | mul (a b : Reg)
  | div (a b : Reg)
  | mod (a b : Reg)
  | cmp (a b : Reg)
  | and (a b : Reg)
  | or (a b : Reg)
  | xor (a b : Reg)
  | shl (a b : Reg)
  | shr (a b : Reg)
deriving DecidableEq, Repr

end Sys2Proof
end

