-- ==== Sys2Proof/WellFormed.lean ====
section
/-! DEFINITION. What is well formed before it is decoded. A term of `Instr` is well formed by its
types: every register operand is one of the eight of `Reg` and every immediate is legal
(30_encoding.md R86, R90; log 17). What can be ill formed is the BYTES that stand for an
instruction, and an image given to the load port. -/

namespace Sys2Proof

/-- The operand count an opcode byte declares: its AA field, bits 7:6 (30_encoding.md R81, R92). -/
def WellFormed.operandCount (op : Byte) : Nat := op.toNat / 64

/-- AA = 3 is never a valid opcode (30_encoding.md R81). -/
def WellFormed.countOk : List Byte → Bool
  | [] => false
  | op :: _ => WellFormed.operandCount op ≤ 2

/-- An instruction is its opcode byte and as many operand bytes as it declares (R80, R92). -/
def WellFormed.lengthOk : List Byte → Bool
  | [] => false
  | op :: operands => operands.length == WellFormed.operandCount op

/-- A register operand byte is `00000rrr`: bits 7:3 must be 0 (30_encoding.md R83, R85). -/
def WellFormed.registerByteOk (b : Byte) : Bool := b.toNat ≤ 7

/-- Operand byte 1, in every format that has one, is a register byte (30_encoding.md R83). -/
def WellFormed.operandOneOk : List Byte → Bool
  | _ :: b1 :: _ => WellFormed.registerByteOk b1
  | _ => true

/-- The conditions every instruction's bytes meet (30_encoding.md R80, R81, R83, R92). -/
def WellFormed.words (ws : List Byte) : Bool :=
  WellFormed.countOk ws && WellFormed.lengthOk ws && WellFormed.operandOneOk ws

/-- The load port takes an image of 0 to 256 bytes (70_reset_and_hazards.md R302). -/
def WellFormed.image (image : List Byte) : Bool := image.length ≤ 256

end Sys2Proof
end

