-- ==== Sys2Proof/Decode.lean ====
section
/-! DEFINITION. The decoder, total on any bytes and rejecting by name, from the opcode map of
30_encoding.md R88; and after it the encoder, written from the formats of R83. -/

namespace Sys2Proof

/-- Why bytes spell no instruction. -/
inductive Reject where
  /-- The opcode byte is not one of the 34 recognised values (30_encoding.md R89). -/
  | invalidOpcode (op : Byte)
  /-- Operand byte number `pos` (1 or 2) must name a register and is above 7 (30_encoding.md R85). -/
  | invalidOperand (pos : Nat) (byte : Byte)
deriving DecidableEq, Repr

/-- The format of an opcode with the instruction its operands make (30_encoding.md R83). -/
inductive Shape where
  | z (i : Instr)
  | r (mk : Reg → Instr)
  | rr (mk : Reg → Reg → Instr)
  | ri (mk : Reg → Byte → Instr)

/-- One row of the opcode map (30_encoding.md R88). -/
structure OpRow where
  opcode : Byte
  shape  : Shape

/-- The rows with no operand byte (30_encoding.md R88). -/
def opRowsZ : List OpRow :=
  [⟨0x00, .z .nop⟩, ⟨0x01, .z .hlt⟩, ⟨0x11, .z .ret⟩, ⟨0x13, .z .iret⟩]

/-- The rows with one operand byte (30_encoding.md R88). -/
def opRowsR : List OpRow :=
  [⟨0x45, .r .push⟩, ⟨0x46, .r .pop⟩, ⟨0x47, .r .prn⟩, ⟨0x48, .r .pra⟩,
   ⟨0x50, .r .call⟩, ⟨0x52, .r .int⟩, ⟨0x54, .r .jmp⟩, ⟨0x55, .r .jeq⟩,
   ⟨0x56, .r .jne⟩, ⟨0x57, .r .jgt⟩, ⟨0x58, .r .jlt⟩, ⟨0x59, .r .jle⟩,
   ⟨0x5A, .r .jge⟩, ⟨0x65, .r .inc⟩, ⟨0x66, .r .dec⟩, ⟨0x69, .r .not⟩]

/-- The rows with two operand bytes (30_encoding.md R88). -/
def opRowsRR : List OpRow :=
  [⟨0x82, .ri .ldi⟩, ⟨0x83, .rr .ld⟩, ⟨0x84, .rr .st⟩,
   ⟨0xA0, .rr .add⟩, ⟨0xA1, .rr .sub⟩, ⟨0xA2, .rr .mul⟩, ⟨0xA3, .rr .div⟩, ⟨0xA4, .rr .mod⟩,
   ⟨0xA7, .rr .cmp⟩, ⟨0xA8, .rr .and⟩, ⟨0xAA, .rr .or⟩, ⟨0xAB, .rr .xor⟩,
   ⟨0xAC, .rr .shl⟩, ⟨0xAD, .rr .shr⟩]

/-- The opcode map (30_encoding.md R88). -/
def opRows : List OpRow := opRowsZ ++ opRowsR ++ opRowsRR

/-- The decoder matches the whole opcode byte against the map (30_encoding.md R82). -/
def opShape (op : Byte) : Option Shape :=
  (opRows.find? fun row => row.opcode == op).map OpRow.shape

/-- The register a register operand byte names: x[byte] for 0..7, none above (30_encoding.md R85). -/
def regOfByte (b : Byte) : Option Reg :=
  match b.toNat with
  | 0 => some .r0
  | 1 => some .r1
  | 2 => some .r2
  | 3 => some .r3
  | 4 => some .r4
  | 5 => some .r5
  | 6 => some .r6
  | 7 => some .r7
  | _ => none

/-- Operand byte number `pos` read as a register operand (30_encoding.md R85). -/
def regOperand (pos : Nat) (b : Byte) : Except Reject Reg :=
  match regOfByte b with
  | some r => .ok r
  | none => .error (.invalidOperand pos b)

/-- The instruction that an opcode byte and the two bytes after it spell, or why they spell none.
A shorter instruction does not look at the bytes past its own. The tests stand in the order of
60_exceptions.md R244: the opcode, operand byte 1, operand byte 2. -/
def decode (op b1 b2 : Byte) : Except Reject Instr :=
  match opShape op with
  | none => .error (.invalidOpcode op)
  | some (.z i) => .ok i
  | some (.r mk) =>
    match regOperand 1 b1 with
    | .error e => .error e
    | .ok r => .ok (mk r)
  | some (.ri mk) =>
    match regOperand 1 b1 with
    | .error e => .error e
    | .ok r => .ok (mk r b2)
  | some (.rr mk) =>
    match regOperand 1 b1 with
    | .error e => .error e
    | .ok a =>
      match regOperand 2 b2 with
      | .error e => .error e
      | .ok b => .ok (mk a b)

/-- The decoder on a list of bytes: its first three, bytes that are not there being 0. -/
def decodeWords (ws : List Byte) : Except Reject Instr :=
  decode (ws.getD 0 0) (ws.getD 1 0) (ws.getD 2 0)

/-- The three bytes of an instruction whose bits are `w`, bit 0 the least significant bit of the
opcode byte and every bit from `nbits` on 0. -/
def tableBytes (nbits w : Nat) : List Byte :=
  [BitVec.ofNat 8 (w % 2 ^ nbits), BitVec.ofNat 8 (w % 2 ^ nbits / 256),
   BitVec.ofNat 8 (w % 2 ^ nbits / 65536)]

/-- The instruction the decoder reads from a word of the opcode table. -/
def decodeTableWord (nbits w : Nat) : Option Instr :=
  match decodeWords (tableBytes nbits w) with
  | .ok i => some i
  | .error _ => none

/-! ### The encoder (30_encoding.md R83, R88) -/

/-- The register operand byte `00000rrr` (30_encoding.md R83). -/
def regByte : Reg → Byte
  | .r0 => 0
  | .r1 => 1
  | .r2 => 2
  | .r3 => 3
  | .r4 => 4
  | .r5 => 5
  | .r6 => 6
  | .r7 => 7

/-- The bytes of an instruction, opcode first (30_encoding.md R80, R83, R88). -/
def encode : Instr → List Byte
  | .nop => [0x00]
  | .hlt => [0x01]
  | .ret => [0x11]
  | .iret => [0x13]
  | .push r => [0x45, regByte r]
  | .pop r => [0x46, regByte r]
  | .prn r => [0x47, regByte r]
  | .pra r => [0x48, regByte r]
  | .call r => [0x50, regByte r]
  | .int r => [0x52, regByte r]
  | .jmp r => [0x54, regByte r]
  | .jeq r => [0x55, regByte r]
  | .jne r => [0x56, regByte r]
  | .jgt r => [0x57, regByte r]
  | .jlt r => [0x58, regByte r]
  | .jle r => [0x59, regByte r]
  | .jge r => [0x5A, regByte r]
  | .inc r => [0x65, regByte r]
  | .dec r => [0x66, regByte r]
  | .not r => [0x69, regByte r]
  | .ldi r imm => [0x82, regByte r, imm]
  | .ld a b => [0x83, regByte a, regByte b]
  | .st a b => [0x84, regByte a, regByte b]
  | .add a b => [0xA0, regByte a, regByte b]
  | .sub a b => [0xA1, regByte a, regByte b]
  | .mul a b => [0xA2, regByte a, regByte b]
  | .div a b => [0xA3, regByte a, regByte b]
  | .mod a b => [0xA4, regByte a, regByte b]
  | .cmp a b => [0xA7, regByte a, regByte b]
  | .and a b => [0xA8, regByte a, regByte b]
  | .or a b => [0xAA, regByte a, regByte b]
  | .xor a b => [0xAB, regByte a, regByte b]
  | .shl a b => [0xAC, regByte a, regByte b]
  | .shr a b => [0xAD, regByte a, regByte b]

end Sys2Proof
end

