-- ==== Sys2Proof/Machine/State.lean ====
section
/-! DEFINITION. The state of the LS-8 core: the tuple of 10_state.md R38, and three fields
of the model's own (the draws of device inputs, log 3; the items the output port received, log 6). -/

namespace Sys2Proof.Machine

/-- The engine state RUN (10_state.md R30). -/
inductive RunState where
  | running
  /-- After HLT: terminal, successful. -/
  | halted
  /-- After a fault: terminal. -/
  | faulted
deriving DecidableEq, Repr

/-- FKIND, the kind of the fault recorded (10_state.md R31; 60_exceptions.md R242). -/
inductive FaultKind where
  /-- No fault. -/
  | none
  | invalidOpcode
  | divisionByZero
  | stackOverflow
  | stackUnderflow
  | invalidOperand
deriving DecidableEq, Repr

/-- FSRC: whether an instruction or an interrupt entry faulted (10_state.md R31). -/
inductive FaultSource where
  | instruction
  | entry
deriving DecidableEq, Repr

/-- The descriptive labels of the interrupt controller (10_state.md R29). No rule reads them. -/
inductive ControllerLabel where
  | idle | pending | servicing
deriving DecidableEq, Repr

/-- An item of the output port (43_data_io.md R205): (NUM, an integer) or (CHAR, a byte). -/
inductive OutputItem where
  | num (value : Int)
  | char (code : Byte)
deriving DecidableEq, Repr

/-- The register file: eight 8-bit registers, no banks, none hardwired (10_state.md R20). -/
structure Regs where
  r0 : Byte
  r1 : Byte
  r2 : Byte
  r3 : Byte
  r4 : Byte
  r5 : Byte
  r6 : Byte
  r7 : Byte
deriving DecidableEq, Repr

/-- Memory as address and byte pairs in one canonical form (`Memory.wf` in Ops.lean): addresses
rising and below 256, no byte 0, which is what an unlisted address reads as, since memory is
"zero-filled" at reset (10_state.md R36; log 15). -/
abbrev Memory := List Host.Cell

/-- The complete state of the core (10_state.md R38). -/
structure State where
  /-- x[0..7] (R20). -/
  regs   : Regs
  /-- PC (R24). -/
  pc     : Byte
  /-- FL, layout `00000LGE` (R25, R26). Read and written through Flags.lean. -/
  fl     : Byte
  /-- IS, one pending bit per line (R27). -/
  is     : Byte
  /-- IE, the servicing-enable latch (R28). -/
  ie     : Bool
  /-- RUN (R30). -/
  run    : RunState
  /-- FKIND (R31). -/
  fkind  : FaultKind
  /-- FADDR (R31). -/
  faddr  : Byte
  /-- FBYTE (R31). -/
  fbyte  : Byte
  /-- FSRC (R31). -/
  fsrc   : FaultSource
  /-- PLIM, an integer 0..256 (R32). -/
  plim   : Nat
  /-- TCNT, an integer 0..TIMER_PERIOD-1 (R33). -/
  tcnt   : Nat
  /-- TEV (R34). -/
  tev    : Bool
  /-- KEV (R34). -/
  kev    : Bool
  /-- KBYTE (R34). -/
  kbyte  : Byte
  /-- M[0..255] (R36). -/
  mem    : Memory
  /-- The model's own: device inputs already settled for the coming steps, one entry a step, the next
  step first. After the last entry, and from reset on, every step's inputs are a free draw,
  `Config.arrivals` (60_exceptions.md R263, R265; log 3). -/
  inputs : List (List DeviceInput)
  /-- The model's own: the number of the next step's draw, advanced by every step (log 3). -/
  draws  : Nat
  /-- The model's own: what the output port has received, oldest first (43_data_io.md R205; log 6). -/
  out    : List OutputItem
deriving DecidableEq, Repr

/-- Why a step does not apply. The faults of 60_exceptions.md R242 are NOT these: raising one of
them is a next state with RUN = Faulted (R241; log 7). -/
inductive Fault where
  /-- Raised by `step` alone, when RUN = Halted: Halted is terminal, no step applies
  (60_exceptions.md R240; 93_implementation_defined.md U13). Safe: the core changes nothing. -/
  | halted
  /-- Raised by `step` alone, when RUN = Faulted: Faulted is terminal, no step applies
  (60_exceptions.md R240; 93_implementation_defined.md U13). Safe: the core changes nothing. -/
  | faulted
deriving DecidableEq, Repr

/-- Why the model gives no meaning. -/
inductive Refusal where
  /-- Raised by an arm of `exec` whose instruction has no meaning yet; every instruction has one, so
  no arm raises it. Safe: the model stops where the core goes on. -/
  | notModelled (mnemonic : String)
deriving DecidableEq, Repr

/-- The machine right after reset (70_reset_and_hazards.md R300; 10_state.md R38). RUN and PLIM get
their values from the load that performs the reset: this is the load of the empty image
(R302 with n = 0; log 1). -/
def State.reset : State where
  regs   := ⟨0, 0, 0, 0, 0, 0, 0, 0xF3⟩
  pc     := 0
  fl     := 0
  is     := 0
  ie     := true
  run    := .running
  fkind  := .none
  faddr  := 0
  fbyte  := 0
  fsrc   := .instruction
  plim   := 0
  tcnt   := 0
  tev    := false
  kev    := false
  kbyte  := 0
  mem    := []
  inputs := []
  draws  := 0
  out    := []

end Sys2Proof.Machine
end

