-- ==== Sys2Proof/Machine/Flags.lean ====
section
/-! DEFINITION. The flags register: its layout, its one reader, its one writer, the flags CMP
computes and the conditions the jumps test. -/

namespace Sys2Proof.Machine

/-- The live bits of FL, 2..0: L, G, E (10_state.md R25). -/
def flMask : Byte := 0x07

/-- FL as it is read: bits 7..3 are hardwired to 0 (10_state.md R26; log 9). -/
def State.readFl (s : State) : Byte := s.fl &&& flMask

/-- Write FL: no writer can set bits 7..3 (10_state.md R26; log 9). -/
def State.writeFl (s : State) (v : Byte) : State := { s with fl := v &&& flMask }

/-- E, bit 0 of FL (10_state.md R25). -/
def State.flagE (s : State) : Bool := s.readFl.getLsbD 0

/-- G, bit 1 of FL (10_state.md R25). -/
def State.flagG (s : State) : Bool := s.readFl.getLsbD 1

/-- L, bit 2 of FL (10_state.md R25). -/
def State.flagL (s : State) : Bool := s.readFl.getLsbD 2

/-- A flag as a bit. -/
def flagBit (b : Bool) : Byte := if b then 1 else 0

/-- What CMP writes to FL: `(L << 2) | (G << 1) | E` of the unsigned comparison of `A` with `B`
(40_alu.md R133). -/
def compareFlags (A B : Byte) : Byte :=
  (flagBit (decide (A.toNat < B.toNat)) <<< 2) ||| (flagBit (decide (A.toNat > B.toNat)) <<< 1)
    ||| flagBit (decide (A.toNat = B.toNat))

/-- JEQ's condition (42_control.md R181). -/
def State.condEq (s : State) : Bool := s.flagE

/-- JNE's condition (42_control.md R182). -/
def State.condNe (s : State) : Bool := !s.flagE

/-- JGT's condition (42_control.md R183). -/
def State.condGt (s : State) : Bool := s.flagG

/-- JLT's condition (42_control.md R184). -/
def State.condLt (s : State) : Bool := s.flagL

/-- JLE's condition (42_control.md R185). -/
def State.condLe (s : State) : Bool := s.flagL || s.flagE

/-- JGE's condition (42_control.md R186). -/
def State.condGe (s : State) : Bool := s.flagG || s.flagE

end Sys2Proof.Machine
end

