-- ==== Sys2Proof/Machine/Ops.lean ====
section
/-! DEFINITION. The shared operations of the core: memory, the register file, the PC, raising a
fault, the stack engine, interrupt entry and the return from it. Each instruction's meaning is
written over these. -/

namespace Sys2Proof.Machine

/-! ### Fixed parameters (00_scope.md R5, R6) -/

/-- SP_REG: the stack pointer is R7 (00_scope.md R6; 10_state.md R21). -/
abbrev spReg : Reg := .r7

/-- IM_REG: the interrupt mask is R5 (00_scope.md R6; 10_state.md R22). -/
abbrev imReg : Reg := .r5

/-- The keyboard register's address (00_scope.md R5; 20_memory.md R57). -/
def keyboardAddr : Byte := 0xF4

/-- The interrupt vector table's base: entry n at 0xF8 + n (00_scope.md R5; 20_memory.md R58). -/
def vectorBase : Byte := 0xF8

/-- SP at reset, one above the highest stack slot 0xF2 (00_scope.md R5; 41_stack.md R162). -/
def stackBase : Nat := 0xF3

/-! ### Memory -/

/-- What the list holds at address `a`; an unlisted address reads 0 (10_state.md R36; log 15). -/
def Memory.read : Memory → Nat → Byte
  | [], _ => 0
  | (k, v) :: rest, a => if k = a then v else Memory.read rest a

/-- `v` at address `a`, the canonical form kept: a 0 is not listed. -/
def Memory.write : Memory → Nat → Byte → Memory
  | [], a, v => if v = 0 then [] else [(a, v)]
  | (k, w) :: rest, a, v =>
    if a < k then (if v = 0 then (k, w) :: rest else (a, v) :: (k, w) :: rest)
    else if a = k then (if v = 0 then rest else (a, v) :: rest)
    else (k, w) :: Memory.write rest a v

/-- Addresses from `lo` on, strictly rising and below 256, and no byte 0. -/
def Memory.wfFrom : Nat → Memory → Bool
  | _, [] => true
  | lo, (k, v) :: rest => decide (lo ≤ k) && decide (k < 256) && decide (v ≠ 0) &&
      Memory.wfFrom (k + 1) rest

/-- The canonical form of memory (log 15). -/
def Memory.wf (m : Memory) : Bool := Memory.wfFrom 0 m

/-- The bytes of `bytes` at `a`, `a + 1`, …, as the load port writes them
(70_reset_and_hazards.md R302). -/
def Memory.copyAt : Memory → Nat → List Byte → Memory
  | m, _, [] => m
  | m, a, b :: bs => Memory.copyAt (Memory.write m a b) (a + 1) bs

/-- `MemRead(a, 1)`: the byte at `a`. The address is 8 bits wide, so it is already reduced modulo
256; a read changes nothing and never faults (20_memory.md R51, R52, R54). -/
def State.read (s : State) (a : Byte) : Byte := Memory.read s.mem a.toNat

/-- A write that is not an instruction's: the keyboard device's or the loader's
(60_exceptions.md R260; 70_reset_and_hazards.md R302). -/
def State.deviceWrite (s : State) (a v : Byte) : State :=
  { s with mem := Memory.write s.mem a.toNat v }

/-- `MemWrite(a, 1, v)` made by an instruction: M[a] <- v and nothing else (20_memory.md R53), but
discarded at the keyboard register (R56). -/
def State.write (s : State) (a v : Byte) : State :=
  { s with mem := if a = keyboardAddr then s.mem else Memory.write s.mem a.toNat v }

/-! ### The register file (10_state.md R20) -/

/-- Register `r` of the file. -/
def Regs.get (x : Regs) : Reg → Byte
  | .r0 => x.r0
  | .r1 => x.r1
  | .r2 => x.r2
  | .r3 => x.r3
  | .r4 => x.r4
  | .r5 => x.r5
  | .r6 => x.r6
  | .r7 => x.r7

/-- The file with `v` in register `r`. -/
def Regs.set (x : Regs) (r : Reg) (v : Byte) : Regs :=
  match r with
  | .r0 => { x with r0 := v }
  | .r1 => { x with r1 := v }
  | .r2 => { x with r2 := v }
  | .r3 => { x with r3 := v }
  | .r4 => { x with r4 := v }
  | .r5 => { x with r5 := v }
  | .r6 => { x with r6 := v }
  | .r7 => { x with r7 := v }

/-- `x[r]` (00_scope.md R12). -/
def State.reg (s : State) (r : Reg) : Byte := s.regs.get r

/-- `x[r] <- v` (00_scope.md R12). -/
def State.setReg (s : State) (r : Reg) (v : Byte) : State := { s with regs := s.regs.set r v }

/-- SP, which is x[7] (10_state.md R21). -/
def State.sp (s : State) : Byte := s.reg spReg

/-- `x[7] <- v`. -/
def State.setSp (s : State) (v : Byte) : State := s.setReg spReg v

/-- IM, which is x[5] (10_state.md R22). -/
def State.im (s : State) : Byte := s.reg imReg

/-! ### The program counter (10_state.md R24) -/

/-- `pc <- t`. -/
def State.jump (s : State) (t : Byte) : State := { s with pc := t }

/-- The address after an instruction of `n` bytes at the PC, modulo 256 (10_state.md R24). -/
def State.pcAfter (s : State) (n : Nat) : Byte := s.pc + BitVec.ofNat 8 n

/-- The PC advanced past an instruction of `n` bytes (30_encoding.md R100). -/
def State.advance (s : State) (n : Nat) : State := s.jump (s.pcAfter n)

/-! ### Interrupt lines, the output port and the end of a run -/

/-- Make line `n` pending: a bit, not a counter (10_state.md R27). -/
def State.setPending (s : State) (n : Nat) : State :=
  { s with is := s.is ||| ((1 : Byte) <<< n) }

/-- Clear the pending bit of line `n` (60_exceptions.md R253). -/
def State.clearPending (s : State) (n : Nat) : State :=
  { s with is := s.is &&& ~~~((1 : Byte) <<< n) }

/-- IE <- b (10_state.md R28). -/
def State.setIe (s : State) (b : Bool) : State := { s with ie := b }

/-- The output port receives one item, in program order (43_data_io.md R205; log 6). -/
def State.emit (s : State) (item : OutputItem) : State := { s with out := s.out ++ [item] }

/-- RUN <- Halted (44_system.md R221). -/
def State.halt (s : State) : State := { s with run := .halted }

/-! ### Faults -/

/-- The code of FKIND (10_state.md R31; 60_exceptions.md R242). -/
def FaultKind.code : FaultKind → BitVec 3
  | .none => 0
  | .invalidOpcode => 1
  | .divisionByZero => 2
  | .stackOverflow => 3
  | .stackUnderflow => 4
  | .invalidOperand => 5

/-- The code of FSRC (10_state.md R31). -/
def FaultSource.code : FaultSource → BitVec 1
  | .instruction => 0
  | .entry => 1

/-- `raise Fault(kind, addr, byte)`: the one operation by which a fault is taken
(60_exceptions.md R241). `s` is the state at the start of the step or of the interrupt entry, so
every effect of it is discarded; the fault record is written and RUN becomes Faulted. -/
def State.raise (s : State) (kind : FaultKind) (addr byte : Byte) (src : FaultSource) : State :=
  { s with run := .faulted, fkind := kind, faddr := addr, fbyte := byte, fsrc := src }

/-! ### The stack engine -/

/-- `StackCheckPush(s, k)`: the slots sp-1 .. sp-k must lie in PLIM .. 0xF2; the kind of fault if
they do not, tested in the order of 41_stack.md R162. The comparison `s - k < PLIM` is on
integers, so it also covers a slot below address 0. -/
def stackCheckPush (sp plim k : Nat) : Option FaultKind :=
  if sp < plim + k then some .stackOverflow
  else if sp > stackBase then some .stackUnderflow
  else none

/-- `StackCheckPop(s, k)`: the slots sp .. sp+k-1 must lie in PLIM .. 0xF2; the kind of fault if
they do not, tested in the order of 41_stack.md R162. The comparison `s + k - 1 > 0xF2` is written
`s + k > 0xF3`, which is the same on integers. -/
def stackCheckPop (sp plim k : Nat) : Option FaultKind :=
  if sp + k > stackBase then some .stackUnderflow
  else if sp < plim then some .stackOverflow
  else none

/-- The writes of `Push(v)`, its check made: SP decremented, `v` at the new address
(41_stack.md R160). -/
def State.pushByte (s : State) (v : Byte) : State := (s.setSp (s.sp - 1)).write (s.sp - 1) v

/-- `Push(v)` by the instruction at the PC with opcode byte `op`, then `done`; a failed check
faults, reporting that instruction (41_stack.md R160, R162). -/
def State.push (s : State) (op v : Byte) (done : State → State) : State :=
  match stackCheckPush s.sp.toNat s.plim 1 with
  | some kind => s.raise kind s.pc op .instruction
  | none => done (s.pushByte v)

/-- `Pop()` by the instruction at the PC with opcode byte `op`, then `done` with the byte read: SP is
incremented before the caller writes its destination (41_stack.md R161); a failed check faults,
reporting that instruction (R162). -/
def State.pop (s : State) (op : Byte) (done : Byte → State → State) : State :=
  match stackCheckPop s.sp.toNat s.plim 1 with
  | some kind => s.raise kind s.pc op .instruction
  | none => done (s.read s.sp) (s.setSp (s.sp + 1))

/-! ### Interrupt entry and return -/

/-- Bytes pushed one after another, the first at the highest address. -/
def State.pushAll (s : State) : List Byte → State
  | [] => s
  | v :: vs => State.pushAll (s.pushByte v) vs

/-- What interrupt entry pushes, in its order: PC, FL, x[0] .. x[7], where the x[7] pushed is the SP
after nine pushes, s - 9 (60_exceptions.md R253). -/
def State.frame (s : State) : List Byte :=
  [s.pc, s.readFl, s.reg .r0, s.reg .r1, s.reg .r2, s.reg .r3, s.reg .r4, s.reg .r5, s.reg .r6,
    s.sp - 9]

/-- `enter(n)`: interrupt entry on line `n`, taken at an instruction boundary
(60_exceptions.md R253). All ten slots are checked before the first write (41_stack.md R169;
log 11); a failed check faults with FSRC = 1, FADDR = the PC that would have been pushed and
FBYTE = n (R254). -/
def State.enter (s : State) (n : Nat) : State :=
  match stackCheckPush s.sp.toNat s.plim 10 with
  | some kind => s.raise kind s.pc (BitVec.ofNat 8 n) .entry
  | none =>
    let t := ((s.pushAll s.frame).clearPending n).setIe false
    t.jump (t.read (vectorBase + BitVec.ofNat 8 n))

/-- The ten pops of the return from an interrupt, its checks made: R7 first, and the remaining nine
from the popped R7; FL keeps its hardwired bits and IE is set (44_system.md R223). -/
def State.popFrame (s : State) : State :=
  let v7 := s.read s.sp
  let x : Regs :=
    { r6 := s.read v7, r5 := s.read (v7 + 1), r4 := s.read (v7 + 2), r3 := s.read (v7 + 3),
      r2 := s.read (v7 + 4), r1 := s.read (v7 + 5), r0 := s.read (v7 + 6), r7 := v7 + 9 }
  ((({ s with regs := x }).writeFl (s.read (v7 + 7))).jump (s.read (v7 + 8))).setIe true

/-- The return from an interrupt, by the instruction at the PC with opcode byte `op`: the first pop
is checked at SP and the other nine at the popped R7, before anything is written
(44_system.md R223; 41_stack.md R169). -/
def State.interruptReturn (s : State) (op : Byte) : State :=
  match stackCheckPop s.sp.toNat s.plim 1 with
  | some kind => s.raise kind s.pc op .instruction
  | none =>
    match stackCheckPop (s.read s.sp).toNat s.plim 9 with
    | some kind => s.raise kind s.pc op .instruction
    | none => s.popFrame

end Sys2Proof.Machine
end

