-- ==== Sys2Proof/Machine/Operands.lean ====
section
/-! DEFINITION. The operand forms: registers read before anything is written, register indirect
addresses, fetch, and the readings of a byte. -/

namespace Sys2Proof.Machine

/-- The effective address of LD and ST: register indirect, no offset, the base not modified
(43_data_io.md R201, R202, R207). -/
def State.ea (s : State) (base : Reg) : Byte := s.reg base

/-- The two's-complement reading of a byte, `sext_8` (00_scope.md R12; 43_data_io.md R206). -/
def sext8 (v : Byte) : Int := if v.toNat < 128 then (v.toNat : Int) else (v.toNat : Int) - 256

/-- Write `f A B` to register `a`, where A = x[a] and B = x[b] are read before the write; the PC past
the three bytes of a format RR instruction (30_encoding.md R87, R100; 40_alu.md preamble). -/
def State.binary (s : State) (f : Byte → Byte → Byte) (a b : Reg) : State :=
  (s.advance 3).setReg a (f (s.reg a) (s.reg b))

/-- Write `f X` to register `r`, where X = x[r] is read before the write; the PC past the two bytes
of a format R instruction (30_encoding.md R87, R100). -/
def State.unary (s : State) (f : Byte → Byte) (r : Reg) : State :=
  (s.advance 2).setReg r (f (s.reg r))

/-- The PC to x[r] when `cond` holds, and else past the two bytes of the instruction
(42_control.md, preamble). -/
def State.jumpIf (s : State) (cond : Bool) (r : Reg) : State :=
  if cond then s.jump (s.reg r) else s.advance 2

/-- The byte `k` places after the PC, addresses wrapping modulo 256 (30_encoding.md R84). -/
def State.fetchByte (s : State) (k : Nat) : Byte := s.read (s.pcAfter k)

/-- The instruction at the PC, from the current contents of memory (20_memory.md R64), or why there
is none. Three bytes are read whatever the opcode: reading has no effect (R52), and `decode` does
not look past an instruction's own bytes (log 10). -/
def State.fetch (s : State) : Except Reject Instr :=
  decode (s.fetchByte 0) (s.fetchByte 1) (s.fetchByte 2)

/-- The fault a rejected fetch raises: InvalidOpcode at the opcode's address, or InvalidOperand at
the operand byte's (30_encoding.md R85, R89; 60_exceptions.md R242). -/
def State.rejectFetch (s : State) : Reject → State
  | .invalidOpcode op => s.raise .invalidOpcode s.pc op .instruction
  | .invalidOperand pos b => s.raise .invalidOperand (s.pcAfter pos) b .instruction

end Sys2Proof.Machine
end

