-- ==== Sys2Proof/Machine/Devices.lean ====
section
/-! DEFINITION. The devices and the boundary: ticks and keys, the latches, the application of waiting
events, the interrupt poll; and the load and status ports. -/

namespace Sys2Proof.Machine

/-- One tick of the timer's time base (60_exceptions.md R262). -/
def State.tick (s : State) : State :=
  if s.tcnt + 1 = Config.timerPeriod then { s with tcnt := 0, tev := true }
  else { s with tcnt := s.tcnt + 1 }

/-- A key pressed: `KBYTE <- k; KEV <- 1` (60_exceptions.md R264). -/
def State.keyPressed (s : State) (k : Byte) : State := { s with kbyte := k, kev := true }

/-- One device input. While RUN is Halted or Faulted it is ignored (60_exceptions.md R261). -/
def State.deviceInput (s : State) (e : DeviceInput) : State :=
  if s.run = .running then
    match e with
    | .tick => s.tick
    | .key k => s.keyPressed k
  else s

/-- Device inputs one after another. -/
def State.deviceInputs (s : State) : List DeviceInput → State
  | [] => s
  | e :: es => State.deviceInputs (s.deviceInput e) es

/-- The inputs of the coming step: the entry settled for it, or else a free draw
(60_exceptions.md R263, R265; log 3). -/
def State.nextInputs (s : State) : List DeviceInput := s.inputs.headD (Config.arrivals s.draws)

/-- The inputs that arrive during this step, taken into the latches, where they wait for the boundary
(60_exceptions.md R260). No instruction sees or changes the latches (10_state.md R33, R34), so
the moment within the step does not matter (log 4). -/
def State.arrive (s : State) : State :=
  let t := s.deviceInputs s.nextInputs
  { s with
    tcnt := t.tcnt, tev := t.tev, kev := t.kev, kbyte := t.kbyte
    inputs := s.inputs.tail, draws := s.draws + 1 }

/-- A waiting key event is applied: the device writes the code to 0xF4 and line I1 becomes pending
(60_exceptions.md R260, R264). -/
def State.applyKey (s : State) : State :=
  if s.kev then { (s.deviceWrite keyboardAddr s.kbyte).setPending 1 with kev := false } else s

/-- A waiting timer event is applied: line I0 becomes pending (60_exceptions.md R260, R262). -/
def State.applyTimer (s : State) : State :=
  if s.tev then { s.setPending 0 with tev := false } else s

/-- The lowest `i` with bit `i` of `m` set: I0 has the highest priority (60_exceptions.md R250,
R251). -/
def lowestLine (m : Byte) : Option Nat := [0, 1, 2, 3, 4, 5, 6, 7].find? fun i => m.getLsbD i

/-- `poll()`: with IE = 1, enter the lowest pending and unmasked line (60_exceptions.md R250). -/
def State.poll (s : State) : State :=
  if s.ie then
    match lowestLine (s.is &&& s.im) with
    | some n => s.enter n
    | none => s
  else s

/-- `boundary()`: the waiting device events, in an order that does not matter (log 16), then the poll
(60_exceptions.md R260). After HLT or a
fault there is no boundary (30_encoding.md R100, R101). -/
def State.boundary (s : State) : State :=
  match s.run with
  | .running => s.applyKey.applyTimer.poll
  | .halted => s
  | .faulted => s

/-! ### Ports (00_scope.md R10) -/

/-- The load port: reset, copy the image to address 0, latch PLIM, run; an image of more than 256
bytes is refused and the state stays (70_reset_and_hazards.md R302). The draws of inputs
are the environment's and go on (log 14). -/
def State.load (s : State) (image : List Byte) : State :=
  if WellFormed.image image then
    { State.reset with
      mem := Memory.copyAt [] 0 image, plim := image.length, inputs := s.inputs, draws := s.draws }
  else s

/-- The status port: RUN, and the fault record when RUN = Faulted (60_exceptions.md R240). -/
def State.statusPort (s : State) : RunState × Option (BitVec 3 × Byte × Byte × BitVec 1) :=
  (s.run,
    match s.run with
    | .faulted => some (s.fkind.code, s.faddr, s.fbyte, s.fsrc.code)
    | .running => none
    | .halted => none)

/-- The descriptive label of the interrupt controller (10_state.md R29). -/
def State.controllerLabel (s : State) : ControllerLabel :=
  if s.ie = false then .servicing else if s.is ≠ 0 then .pending else .idle

end Sys2Proof.Machine
end

