-- ==== Sys2Proof/Machine/Alu.lean ====
section
/-! DEFINITION. The ALU instructions (40_alu.md). Only CMP writes FL (10_state.md R26). -/

namespace Sys2Proof.Machine

/-- ADD a, b: `x[a] <- (A + B) mod 256` (40_alu.md R120). -/
def execAdd (a b : Reg) (s : State) : Host.Outcome State Fault Refusal :=
  .next (s.binary (fun A B => A + B) a b)

/-- SUB a, b: `x[a] <- (A - B) mod 256` (40_alu.md R121). -/
def execSub (a b : Reg) (s : State) : Host.Outcome State Fault Refusal :=
  .next (s.binary (fun A B => A - B) a b)

/-- MUL a, b: `x[a] <- (A * B) mod 256` (40_alu.md R122). -/
def execMul (a b : Reg) (s : State) : Host.Outcome State Fault Refusal :=
  .next (s.binary (fun A B => A * B) a b)

/-- `f A B` to register `a` when B is not 0; else DivisionByZero at the opcode's address with the
opcode byte (40_alu.md R123, R124). -/
def State.divide (s : State) (op : Byte) (f : Byte → Byte → Byte) (a b : Reg) : State :=
  if s.reg b = 0 then s.raise .divisionByZero s.pc op .instruction else s.binary f a b

/-- DIV a, b: `x[a] <- A div B`, unsigned, toward zero (40_alu.md R123). -/
def execDiv (a b : Reg) (s : State) : Host.Outcome State Fault Refusal :=
  .next (s.divide 0xA3 (fun A B => A / B) a b)

/-- MOD a, b: `x[a] <- A mod B`, unsigned (40_alu.md R124). -/
def execMod (a b : Reg) (s : State) : Host.Outcome State Fault Refusal :=
  .next (s.divide 0xA4 (fun A B => A % B) a b)

/-- INC r: `x[r] <- (X + 1) mod 256` (40_alu.md R125). -/
def execInc (r : Reg) (s : State) : Host.Outcome State Fault Refusal :=
  .next (s.unary (fun X => X + 1) r)

/-- DEC r: `x[r] <- (X - 1) mod 256` (40_alu.md R126). -/
def execDec (r : Reg) (s : State) : Host.Outcome State Fault Refusal :=
  .next (s.unary (fun X => X - 1) r)

/-- AND a, b: `x[a] <- A & B` (40_alu.md R127). -/
def execAnd (a b : Reg) (s : State) : Host.Outcome State Fault Refusal :=
  .next (s.binary (fun A B => A &&& B) a b)

/-- OR a, b: `x[a] <- A | B` (40_alu.md R128). -/
def execOr (a b : Reg) (s : State) : Host.Outcome State Fault Refusal :=
  .next (s.binary (fun A B => A ||| B) a b)

/-- XOR a, b: `x[a] <- A ^ B` (40_alu.md R129). -/
def execXor (a b : Reg) (s : State) : Host.Outcome State Fault Refusal :=
  .next (s.binary (fun A B => A ^^^ B) a b)

/-- NOT r: `x[r] <- ~X` (40_alu.md R130). -/
def execNot (r : Reg) (s : State) : Host.Outcome State Fault Refusal :=
  .next (s.unary (fun X => ~~~X) r)

/-- SHL a, b: `x[a] <- (A << B) mod 256`, the whole count used, 0 from a count of 8 on
(40_alu.md R131). -/
def execShl (a b : Reg) (s : State) : Host.Outcome State Fault Refusal :=
  .next (s.binary (fun A B => A <<< B.toNat) a b)

/-- SHR a, b: `x[a] <- A >> B`, logical, the whole count used, 0 from a count of 8 on
(40_alu.md R132). -/
def execShr (a b : Reg) (s : State) : Host.Outcome State Fault Refusal :=
  .next (s.binary (fun A B => A >>> B.toNat) a b)

/-- CMP a, b: FL from the unsigned comparison of A with B; no register written (40_alu.md R133). -/
def execCmp (a b : Reg) (s : State) : Host.Outcome State Fault Refusal :=
  .next ((s.advance 3).writeFl (compareFlags (s.reg a) (s.reg b)))

end Sys2Proof.Machine
end

