-- ==== Sys2Proof/Machine/Control.lean ====
section
/-! DEFINITION. The jumps (42_control.md). -/

namespace Sys2Proof.Machine

/-- JMP r: `pc <- T` (42_control.md R180). -/
def execJmp (r : Reg) (s : State) : Host.Outcome State Fault Refusal :=
  .next (s.jumpIf true r)

/-- JEQ r: taken when E = 1 (42_control.md R181). -/
def execJeq (r : Reg) (s : State) : Host.Outcome State Fault Refusal :=
  .next (s.jumpIf s.condEq r)

/-- JNE r: taken when E = 0 (42_control.md R182). -/
def execJne (r : Reg) (s : State) : Host.Outcome State Fault Refusal :=
  .next (s.jumpIf s.condNe r)

/-- JGT r: taken when G = 1 (42_control.md R183). -/
def execJgt (r : Reg) (s : State) : Host.Outcome State Fault Refusal :=
  .next (s.jumpIf s.condGt r)

/-- JLT r: taken when L = 1 (42_control.md R184). -/
def execJlt (r : Reg) (s : State) : Host.Outcome State Fault Refusal :=
  .next (s.jumpIf s.condLt r)

/-- JLE r: taken when L = 1 or E = 1 (42_control.md R185). -/
def execJle (r : Reg) (s : State) : Host.Outcome State Fault Refusal :=
  .next (s.jumpIf s.condLe r)

/-- JGE r: taken when G = 1 or E = 1 (42_control.md R186). -/
def execJge (r : Reg) (s : State) : Host.Outcome State Fault Refusal :=
  .next (s.jumpIf s.condGe r)

end Sys2Proof.Machine
end

