-- ==== Sys2Proof/Machine/DataIo.lean ====
section
/-! DEFINITION. LDI, LD, ST, PRN and PRA (43_data_io.md). -/

namespace Sys2Proof.Machine

/-- LDI r, imm: `x[r] <- imm` (43_data_io.md R200). -/
def execLdi (r : Reg) (imm : Byte) (s : State) : Host.Outcome State Fault Refusal :=
  .next ((s.advance 3).setReg r imm)

/-- LD a, b: `x[a] <- MemRead(x[b], 1)` (43_data_io.md R201). -/
def execLd (a b : Reg) (s : State) : Host.Outcome State Fault Refusal :=
  .next ((s.advance 3).setReg a (s.read (s.ea b)))

/-- ST a, b: `MemWrite(x[a], 1, x[b])`, discarded at 0xF4 (43_data_io.md R202; 20_memory.md R56). -/
def execSt (a b : Reg) (s : State) : Host.Outcome State Fault Refusal :=
  .next ((s.advance 3).write (s.ea a) (s.reg b))

/-- PRN r: `Output(NUM, sext_8(x[r]))` (43_data_io.md R203, R206). -/
def execPrn (r : Reg) (s : State) : Host.Outcome State Fault Refusal :=
  .next ((s.advance 2).emit (.num (sext8 (s.reg r))))

/-- PRA r: `Output(CHAR, x[r])` (43_data_io.md R204). -/
def execPra (r : Reg) (s : State) : Host.Outcome State Fault Refusal :=
  .next ((s.advance 2).emit (.char (s.reg r)))

end Sys2Proof.Machine
end

