-- ==== Sys2Proof/Machine/Stack.lean ====
section
/-! DEFINITION. PUSH, POP, CALL and RET (41_stack.md). -/

namespace Sys2Proof.Machine

/-- PUSH r: the value is read before the decrement (41_stack.md R160, R163). -/
def execPush (r : Reg) (s : State) : Host.Outcome State Fault Refusal :=
  .next (s.push 0x45 (s.reg r) fun t => t.advance 2)

/-- POP r: the destination is written after the increment (41_stack.md R161, R164). -/
def execPop (r : Reg) (s : State) : Host.Outcome State Fault Refusal :=
  .next (s.pop 0x46 fun v t => (t.advance 2).setReg r v)

/-- CALL r: the target is read before the push; the return address is that after the operand
(41_stack.md R165). -/
def execCall (r : Reg) (s : State) : Host.Outcome State Fault Refusal :=
  .next (s.push 0x50 (s.pcAfter 2) fun t => t.jump (s.reg r))

/-- RET: pop into PC (41_stack.md R166). -/
def execRet (s : State) : Host.Outcome State Fault Refusal :=
  .next (s.pop 0x11 fun v t => t.jump v)

end Sys2Proof.Machine
end

