-- ==== Sys2Proof/Machine/System.lean ====
section
/-! DEFINITION. NOP, HLT, INT and IRET (44_system.md). -/

namespace Sys2Proof.Machine

/-- NOP: only the PC advances (44_system.md R220). -/
def execNop (s : State) : Host.Outcome State Fault Refusal := .next (s.advance 1)

/-- HLT: `RUN <- Halted`, the PC past it (44_system.md R221). -/
def execHlt (s : State) : Host.Outcome State Fault Refusal := .next (s.advance 1).halt

/-- INT r: line x[r] becomes pending; a number above 7 names no line and raises InvalidOperand at
the opcode's address with the register's value (44_system.md R222). -/
def execInt (r : Reg) (s : State) : Host.Outcome State Fault Refusal :=
  if (s.reg r).toNat > 7 then .next (s.raise .invalidOperand s.pc (s.reg r) .instruction)
  else .next ((s.advance 2).setPending (s.reg r).toNat)

/-- IRET: the return from an interrupt (44_system.md R223). -/
def execIret (s : State) : Host.Outcome State Fault Refusal := .next (s.interruptReturn 0x13)

end Sys2Proof.Machine
end

