-- ==== Sys2Proof/Machine/Step.lean ====
section
/-! DEFINITION. One step of the main execution loop (30_encoding.md R100). -/

namespace Sys2Proof.Machine

/-- One iteration of the main loop: the inputs of this step arrive in the latches, one instruction is
fetched and executed, and the boundary follows (00_scope.md R14; 30_encoding.md R100). Halted and
Faulted are terminal: no step applies (60_exceptions.md R240; log 7). -/
def step (s : State) : Host.Outcome State Fault Refusal :=
  match s.run with
  | .halted => .fault .halted
  | .faulted => .fault .faulted
  | .running =>
    match s.arrive.fetch with
    | .error e => .next (s.arrive.rejectFetch e)
    | .ok i =>
      match exec i s.arrive with
      | .next t => .next t.boundary
      | .fault f => .fault f
      | .refused r => .refused r

/-- `s` with the bytes of the word `w` of `nbits` bits (and zeros after them) at the PC, where the
next step fetches, and RUN = Running, without which no step fetches. It stands for a load of the
program from outside (log 2), so the keyboard register is written as the load port writes it. -/
def State.withFetchWord (s : State) (nbits w : Nat) : State :=
  let ws := tableBytes nbits w
  let t := ((s.deviceWrite s.pc (ws.getD 0 0)).deviceWrite (s.pcAfter 1) (ws.getD 1 0)).deviceWrite
    (s.pcAfter 2) (ws.getD 2 0)
  { t with run := .running }

end Sys2Proof.Machine
end

