-- ==== Sys2Proof/Safety.lean ====
section
/-! DEFINITION. The terms in which claims are made: the invariant of the machine, what a safe step and
run are, what a transition keeps (frames), what taking a fault leaves, what the device latches take in, and how an opcode spells an
instruction. -/

namespace Sys2Proof.Machine

/-! ### The invariant -/

/-- Memory is in its canonical form (log 15): 256 cells, each address listed at most once. -/
abbrev State.memOk (s : State) : Prop := Memory.wf s.mem = true

/-- Bits 7..3 of FL are 0 (10_state.md R26). -/
abbrev State.flOk (s : State) : Prop := s.fl &&& 0xF8 = 0

/-- PLIM is an integer 0..256 (10_state.md R32). -/
abbrev State.plimOk (s : State) : Prop := s.plim ≤ 256

/-- TCNT is an integer 0..TIMER_PERIOD-1 (10_state.md R33). -/
abbrev State.timerOk (s : State) : Prop := s.tcnt < Config.timerPeriod

/-- The fault record is all zero unless a fault was raised, and then names one of the five kinds; an
interrupt entry raises only the stack faults (10_state.md R31; 60_exceptions.md R241, R254). -/
abbrev State.recordOk (s : State) : Prop :=
  (s.run ≠ .faulted →
    s.fkind = .none ∧ s.faddr = 0 ∧ s.fbyte = 0 ∧ s.fsrc = .instruction) ∧
  (s.run = .faulted → s.fkind ≠ .none) ∧
  (s.fsrc = .entry → s.fkind = .stackOverflow ∨ s.fkind = .stackUnderflow)

/-- What holds of every state a run can reach. -/
def State.Inv (s : State) : Prop :=
  s.memOk ∧ s.flOk ∧ s.plimOk ∧ s.timerOk ∧ s.recordOk

/-! ### Safe steps and runs -/

/-- A step is safe when it answers a next state that has not faulted (60_exceptions.md R240). -/
def SafeOutcome : Host.Outcome State Fault Refusal → Prop
  | .next t => t.run ≠ .faulted
  | .fault _ => False
  | .refused _ => False

/-- The next `k` steps are safe, or the run ended with HLT before (70_reset_and_hazards.md R304). -/
def SafeRun : Nat → State → Prop
  | 0, s => s.run ≠ .faulted
  | k + 1, s => s.run = .halted ∨ ∃ t, step s = .next t ∧ t.run ≠ .faulted ∧ SafeRun k t

/-! ### Frames: what a transition from `s` to `t` keeps -/

/-- Every general register but those of `dest` is kept. -/
def RegsKept (dest : List Reg) (s t : State) : Prop := ∀ r, r ∉ dest → t.reg r = s.reg r

/-- Every byte of memory but those at the addresses `cells` reads as before. -/
def MemKept (cells : List Byte) (s t : State) : Prop := ∀ a, a ∉ cells → t.read a = s.read a

/-- IS and IE are kept. -/
def InterruptsKept (s t : State) : Prop := t.is = s.is ∧ t.ie = s.ie

/-- RUN and the fault record are kept. -/
def EngineKept (s t : State) : Prop :=
  t.run = s.run ∧ t.fkind = s.fkind ∧ t.faddr = s.faddr ∧ t.fbyte = s.fbyte ∧ t.fsrc = s.fsrc

/-- The device state, the program-region limit and the draws of inputs are kept. -/
def DevicesKept (s t : State) : Prop :=
  t.plim = s.plim ∧ t.tcnt = s.tcnt ∧ t.tev = s.tev ∧ t.kev = s.kev ∧ t.kbyte = s.kbyte ∧
  t.inputs = s.inputs ∧ t.draws = s.draws

/-- Everything is kept but the PC, FL, the output, the registers `dest` and the memory at `cells`. -/
def CoreKept (dest : List Reg) (cells : List Byte) (s t : State) : Prop :=
  RegsKept dest s t ∧ MemKept cells s t ∧ InterruptsKept s t ∧ EngineKept s t ∧ DevicesKept s t

/-- Everything is kept but the PC, the registers `dest` and the memory at `cells`. -/
def KeptBut (dest : List Reg) (cells : List Byte) (s t : State) : Prop :=
  CoreKept dest cells s t ∧ t.fl = s.fl ∧ t.out = s.out

/-- The PC moved on by `n` bytes, modulo 256 (10_state.md R24). -/
def PcMoved (n : Nat) (s t : State) : Prop := t.pc.toNat = (s.pc.toNat + n) % 256

/-- `t` is `s` with this fault taken: RUN and the record written and nothing else changed
(60_exceptions.md R241). -/
def FaultTaken (kind : FaultKind) (addr byte : Byte) (src : FaultSource) (s t : State) : Prop :=
  t.run = .faulted ∧ t.fkind = kind ∧ t.faddr = addr ∧ t.fbyte = byte ∧ t.fsrc = src ∧
  RegsKept [] s t ∧ MemKept [] s t ∧ t.pc = s.pc ∧ t.fl = s.fl ∧ InterruptsKept s t ∧
  DevicesKept s t ∧ t.out = s.out

/-! ### Device inputs -/

/-- The code of a key input. -/
def DeviceInput.keyCode : DeviceInput → Option Byte
  | .tick => none
  | .key k => some k

/-- The code of the last key among `es`, if there is one (60_exceptions.md R265). -/
def lastKey (es : List DeviceInput) : Option Byte := (es.filterMap DeviceInput.keyCode).getLast?

/-- From `s` to `t` the latches and the counter took in the inputs `es`, ticks and keys in any order:
KBYTE is the last key's code and KEV is set if there is a key, and else both are as before
(60_exceptions.md R264, R265); TCNT counts the ticks modulo TIMER_PERIOD, and TEV is set exactly
when the period was reached, or was set before (R262). -/
def Latched (es : List DeviceInput) (s t : State) : Prop :=
  t.kbyte = (lastKey es).getD s.kbyte ∧ t.kev = (s.kev || (lastKey es).isSome) ∧
  t.tcnt = (s.tcnt + es.count .tick) % Config.timerPeriod ∧
  t.tev = (s.tev || decide (Config.timerPeriod ≤ s.tcnt + es.count .tick))

/-! ### Spelling -/

/-- The opcode bytes of format Z (30_encoding.md R83, R88), written out apart from the decoder's own
table. -/
def opcodesZ : List Byte := [0x00, 0x01, 0x11, 0x13]

/-- The opcode bytes of format R (30_encoding.md R83, R88). -/
def opcodesR : List Byte :=
  [0x45, 0x46, 0x47, 0x48] ++ [0x50, 0x52] ++ [0x54, 0x55, 0x56, 0x57, 0x58, 0x59, 0x5A] ++
  [0x65, 0x66, 0x69]

/-- The opcode byte of format RI (30_encoding.md R83, R88). -/
def opcodesRI : List Byte := [0x82]

/-- The opcode bytes of format RR (30_encoding.md R83, R88). -/
def opcodesRR : List Byte :=
  [0x83, 0x84] ++ [0xA0, 0xA1, 0xA2, 0xA3, 0xA4, 0xA7] ++ [0xA8, 0xAA, 0xAB, 0xAC, 0xAD]

/-- The 34 recognised opcode bytes (30_encoding.md R88). -/
def recognisedOpcodes : List Byte := opcodesZ ++ opcodesR ++ opcodesRI ++ opcodesRR

/-- `op` is the opcode of the format R instruction `mk`: operand byte 1 names its register, and above
7 is rejected (30_encoding.md R83, R85). -/
def SpellsR (op : Byte) (mk : Reg → Instr) : Prop :=
  ∀ b1 b2 : Byte,
    (∀ r, b1 = regByte r → decode op b1 b2 = .ok (mk r) ∧ encode (mk r) = [op, b1]) ∧
    (7 < b1.toNat → decode op b1 b2 = .error (.invalidOperand 1 b1))

/-- `op` is the opcode of the format RR instruction `mk`: operand bytes 1 and 2 name its registers, and
above 7 are rejected, byte 1 before byte 2 (30_encoding.md R83, R85; 60_exceptions.md R244). -/
def SpellsRR (op : Byte) (mk : Reg → Reg → Instr) : Prop :=
  ∀ b1 b2 : Byte,
    (∀ a b, b1 = regByte a → b2 = regByte b →
      decode op b1 b2 = .ok (mk a b) ∧ encode (mk a b) = [op, b1, b2]) ∧
    (7 < b1.toNat → decode op b1 b2 = .error (.invalidOperand 1 b1)) ∧
    (b1.toNat ≤ 7 → 7 < b2.toNat → decode op b1 b2 = .error (.invalidOperand 2 b2))

end Sys2Proof.Machine
end

