-- ==== Sys2Proof/Certificates/Slice0/Obligations.lean ====
section
/-! DEFINITION. The statements for the provers. Each docstring names the rule of spec/ it formalises
and, where that rule is one the spec marks as its own decision (92_eei_decisions.md) or derivation,
says so. -/

open Sys2Proof Sys2Proof.Machine

/-! ### Reset, load and the invariant -/

/-- The invariant holds at reset. It rests on log 1 (State.reset is the load of the empty image). -/
def Obligations.ResetMeetsInvariant : Prop := State.reset.Inv

/-- A load of up to 256 bytes, from any state, leaves every piece of state at its reset value, memory
holding the image and 0 elsewhere, PLIM its length and RUN Running; a longer image is refused and
the state stays (70_reset_and_hazards.md R300, R302; the spec's decisions D6, D13, D29, D38). That
the draws of inputs go on and the output record is empty is the model's choice (logs 6, 14). -/
def Obligations.LoadResetsAndCopiesImage : Prop :=
  ∀ (s : State) (image : List Byte),
    (image.length ≤ 256 →
      (s.load image).reg .r7 = 0xF3 ∧
      (∀ r, r ≠ .r7 → (s.load image).reg r = 0) ∧
      (s.load image).pc = 0 ∧ (s.load image).fl = 0 ∧ (s.load image).is = 0 ∧
      (s.load image).ie = true ∧ (s.load image).run = .running ∧
      (s.load image).fkind = .none ∧ (s.load image).faddr = 0 ∧ (s.load image).fbyte = 0 ∧
      (s.load image).fsrc = .instruction ∧ (s.load image).plim = image.length ∧
      (s.load image).tcnt = 0 ∧ (s.load image).tev = false ∧ (s.load image).kev = false ∧
      (s.load image).kbyte = 0 ∧ (s.load image).inputs = s.inputs ∧
      (s.load image).draws = s.draws ∧ (s.load image).out = [] ∧
      ∀ a : Byte, (s.load image).read a = image.getD a.toNat 0) ∧
    (256 < image.length → s.load image = s)

/-- The invariant holds after every load the port accepts, from whatever state. -/
def Obligations.LoadMeetsInvariant : Prop :=
  ∀ (s : State) (image : List Byte), image.length ≤ 256 → (s.load image).Inv

/-- Every step keeps the invariant: memory stays canonical (log 15), bits 7..3 of FL stay 0
(10_state.md R26), PLIM stays in 0..256 (R32), TCNT stays below TIMER_PERIOD (R33), and the fault
record is written exactly when a fault is raised (R31). -/
def Obligations.StepKeepsInvariant : Prop :=
  ∀ s t : State, s.Inv → step s = .next t → t.Inv

/-! ### Encoding -/

/-- For each of the 34 rows of the opcode map a word written out from 30_encoding.md R83 and R88 decodes
to the instruction it stands for. The opcode values are the spec's decision D1 (log 12). -/
def Obligations.SpecWordsDecode : Prop :=
  decode 0b00000000 0xFF 0xFF = .ok .nop ∧
  decode 0b00000001 0xFF 0xFF = .ok .hlt ∧
  decode 0b00010001 0xFF 0xFF = .ok .ret ∧
  decode 0b00010011 0xFF 0xFF = .ok .iret ∧
  decode 0b01000101 0b00000101 0xFF = .ok (.push .r5) ∧
  decode 0b01000110 0b00000110 0xFF = .ok (.pop .r6) ∧
  decode 0b01000111 0b00000111 0xFF = .ok (.prn .r7) ∧
  decode 0b01001000 0b00000000 0xFF = .ok (.pra .r0) ∧
  decode 0b01010000 0b00000001 0xFF = .ok (.call .r1) ∧
  decode 0b01010010 0b00000010 0xFF = .ok (.int .r2) ∧
  decode 0b01010100 0b00000011 0xFF = .ok (.jmp .r3) ∧
  decode 0b01010101 0b00000100 0xFF = .ok (.jeq .r4) ∧
  decode 0b01010110 0b00000101 0xFF = .ok (.jne .r5) ∧
  decode 0b01010111 0b00000110 0xFF = .ok (.jgt .r6) ∧
  decode 0b01011000 0b00000111 0xFF = .ok (.jlt .r7) ∧
  decode 0b01011001 0b00000000 0xFF = .ok (.jle .r0) ∧
  decode 0b01011010 0b00000001 0xFF = .ok (.jge .r1) ∧
  decode 0b01100101 0b00000010 0xFF = .ok (.inc .r2) ∧
  decode 0b01100110 0b00000011 0xFF = .ok (.dec .r3) ∧
  decode 0b01101001 0b00000100 0xFF = .ok (.not .r4) ∧
  decode 0b10000010 0b00000101 0xFF = .ok (.ldi .r5 0xFF) ∧
  decode 0b10000011 0b00000001 0b00000110 = .ok (.ld .r1 .r6) ∧
  decode 0b10000100 0b00000010 0b00000001 = .ok (.st .r2 .r1) ∧
  decode 0b10100000 0b00000011 0b00000100 = .ok (.add .r3 .r4) ∧
  decode 0b10100001 0b00000100 0b00000111 = .ok (.sub .r4 .r7) ∧
  decode 0b10100010 0b00000101 0b00000010 = .ok (.mul .r5 .r2) ∧
  decode 0b10100011 0b00000110 0b00000101 = .ok (.div .r6 .r5) ∧
  decode 0b10100100 0b00000111 0b00000000 = .ok (.mod .r7 .r0) ∧
  decode 0b10100111 0b00000000 0b00000011 = .ok (.cmp .r0 .r3) ∧
  decode 0b10101000 0b00000001 0b00000110 = .ok (.and .r1 .r6) ∧
  decode 0b10101010 0b00000010 0b00000001 = .ok (.or .r2 .r1) ∧
  decode 0b10101011 0b00000011 0b00000100 = .ok (.xor .r3 .r4) ∧
  decode 0b10101100 0b00000100 0b00000111 = .ok (.shl .r4 .r7) ∧
  decode 0b10101101 0b00000101 0b00000010 = .ok (.shr .r5 .r2)

/-- Decoding the bytes of any instruction, whatever follows them, gives that instruction back. -/
def Obligations.DecodeOfEncodeIsTheInstruction : Prop :=
  ∀ (i : Instr) (rest : List Byte), decodeWords (encode i ++ rest) = .ok i

/-- Each word has one meaning: bytes that decode to an instruction are that instruction's bytes, as
many as the AA field of the opcode byte declares and one more (30_encoding.md R80, R92). -/
def Obligations.EncodeOfDecodeIsTheBytes : Prop :=
  ∀ (op b1 b2 : Byte) (i : Instr), decode op b1 b2 = .ok i →
    encode i = [op, b1, b2].take (op.toNat / 64 + 1)

/-- The class bits of the opcode bytes: bit 5 is set for exactly the ALU instructions, bit 4 for
exactly the control-flow instructions CALL, RET, IRET, INT and the jumps (30_encoding.md R81, R103;
the spec's decision D1). -/
def Obligations.OpcodeClassBits : Prop :=
  ∀ i : Instr, ∃ op, (encode i).head? = some op ∧
    (op.getLsbD 5 = true ↔
      ∃ a b, i = .add a b ∨ i = .sub a b ∨ i = .mul a b ∨ i = .div a b ∨ i = .mod a b ∨
        i = .cmp a b ∨ i = .and a b ∨ i = .or a b ∨ i = .xor a b ∨ i = .shl a b ∨ i = .shr a b ∨
        i = .inc a ∨ i = .dec a ∨ i = .not a) ∧
    (op.getLsbD 4 = true ↔
      ∃ r, i = .call r ∨ i = .ret ∨ i = .iret ∨ i = .int r ∨ i = .jmp r ∨ i = .jeq r ∨
        i = .jne r ∨ i = .jgt r ∨ i = .jlt r ∨ i = .jle r ∨ i = .jge r)

/-! ### Memory and fetch -/

/-- A write by an instruction sets the byte at its address and changes nothing else (20_memory.md R53).
The keyboard register 0xF4, for which R53 refers to R56, is in StoreWritesOneByte. -/
def Obligations.MemoryWriteSetsOneByte : Prop :=
  ∀ (s : State) (a v : Byte), s.memOk → a ≠ 0xF4 →
    (s.write a v).read a = v ∧ KeptBut [] [a] s (s.write a v) ∧ (s.write a v).pc = s.pc

/-- Fetch reads the opcode byte at the PC and as many operand bytes as the instruction has, at
addresses that wrap modulo 256, with no fault from the wrap: when those bytes are the encoding of
`i`, the fetch answers `i`, whatever the bytes after them (30_encoding.md R84). -/
def Obligations.FetchReadsAtWrappingAddresses : Prop :=
  ∀ (s : State) (i : Instr),
    (∀ k, k < (encode i).length →
      s.read (BitVec.ofNat 8 ((s.pc.toNat + k) % 256)) = (encode i).getD k 0) →
    s.fetch = .ok i

/-! ### The step -/

/-- When the bytes at the PC are those of an instruction, a step of a running core is that
instruction's execution and then the boundary; the execution answers a next state, and the bytes are
read at addresses that wrap modulo 256 (30_encoding.md R84, R100). That the instruction is executed
after the step's inputs have arrived in the latches is not in those rules: it is the model's reading
(log 4, with log 3) of 60_exceptions.md R260, by which no instruction sees a waiting event. -/
def Obligations.StepRunsTheInstructionAtPc : Prop :=
  ∀ (s : State) (i : Instr), s.run = .running →
    (∀ k, k < (encode i).length →
      s.read (BitVec.ofNat 8 ((s.pc.toNat + k) % 256)) = (encode i).getD k 0) →
    ∃ t, exec i s.arrive = .next t ∧ step s = .next t.boundary

/-- The arrival of a step's inputs changes the device latches and the counter only: no event changes
anything an instruction can see before the boundary (60_exceptions.md R260; the spec's decision
D17). One draw of inputs is used up (log 3). -/
def Obligations.ArrivalChangesOnlyDeviceLatches : Prop :=
  ∀ s : State,
    s.arrive.regs = s.regs ∧ s.arrive.pc = s.pc ∧ s.arrive.fl = s.fl ∧ s.arrive.is = s.is ∧
    s.arrive.ie = s.ie ∧ EngineKept s s.arrive ∧ s.arrive.plim = s.plim ∧ s.arrive.mem = s.mem ∧
    s.arrive.out = s.out ∧ s.arrive.inputs = s.inputs.tail ∧ s.arrive.draws = s.draws + 1

/-- Every step that answers a next state uses up exactly one draw of inputs, and the draws after it are
left alone: which ticks and keys arrive in the coming steps depends on no instruction
(60_exceptions.md R263, R265; the spec's decisions D19, D31). The draws and their numbering are the
model's own (log 3). -/
def Obligations.EveryStepUsesOneDraw : Prop :=
  ∀ s t : State, step s = .next t → t.inputs = s.inputs.tail ∧ t.draws = s.draws + 1

/-- A running core always completes its step: no step is refused and no step stops, whatever bytes
stand at the PC (30_encoding.md R100; a fault is a next state, log 7). -/
def Obligations.RunningStepAnswersNext : Prop :=
  ∀ s : State, s.run = .running → ∃ t, step s = .next t

/-- Halted and Faulted are terminal: no step applies, and no tick or key changes anything
(60_exceptions.md R240, R261; the spec's decisions D11, D17; log 7). -/
def Obligations.StoppedCoreStaysStopped : Prop :=
  ∀ (s : State) (es : List DeviceInput),
    (s.run = .halted → step s = .fault .halted ∧ s.deviceInputs es = s) ∧
    (s.run = .faulted → step s = .fault .faulted ∧ s.deviceInputs es = s)

/-- An opcode byte outside the 34 of 30_encoding.md R88 raises InvalidOpcode with the opcode's address
and the byte, and changes nothing else (R89; the spec's decision D2). There are 222 such bytes. -/
def Obligations.UnlistedOpcodeRaisesInvalidOpcode : Prop :=
  (((List.range 256).map (BitVec.ofNat 8)).filter
    (fun b => !recognisedOpcodes.contains b)).length = 222 ∧
  ∀ s : State, s.run = .running → s.read s.pc ∉ recognisedOpcodes →
    ∃ t, step s = .next t ∧ FaultTaken .invalidOpcode s.pc (s.read s.pc) .instruction s.arrive t

/-- A register operand byte above 7 raises InvalidOperand with the operand byte's address and the byte,
and changes nothing else; byte 1 is tested before byte 2, and byte 2 of LDI is no register byte
(30_encoding.md R85; 60_exceptions.md R244; the spec's decisions D10, D12). -/
def Obligations.BadRegisterByteRaisesInvalidOperand : Prop :=
  ∀ s : State, s.run = .running →
    (s.read s.pc ∈ opcodesR ++ opcodesRI ++ opcodesRR → 7 < (s.read (s.pc + 1)).toNat →
      ∃ t, step s = .next t ∧
        FaultTaken .invalidOperand (s.pc + 1) (s.read (s.pc + 1)) .instruction s.arrive t) ∧
    (s.read s.pc ∈ opcodesRR → (s.read (s.pc + 1)).toNat ≤ 7 → 7 < (s.read (s.pc + 2)).toNat →
      ∃ t, step s = .next t ∧
        FaultTaken .invalidOperand (s.pc + 2) (s.read (s.pc + 2)) .instruction s.arrive t)

/-! ### ALU -/

/-- ADD, SUB and MUL: encoding, result modulo 256, and nothing else changed (40_alu.md R120, R121,
R122). The opcode values these rules name are the spec's decision D1 (log 12). -/
def Obligations.AddSubMulResults : Prop :=
  SpellsRR 0xA0 .add ∧ SpellsRR 0xA1 .sub ∧ SpellsRR 0xA2 .mul ∧
  ∀ (a b : Reg) (s : State),
    (∃ t, exec (.add a b) s = .next t ∧
      (t.reg a).toNat = ((s.reg a).toNat + (s.reg b).toNat) % 256 ∧
      PcMoved 3 s t ∧ KeptBut [a] [] s t) ∧
    (∃ t, exec (.sub a b) s = .next t ∧
      (t.reg a).toNat = ((s.reg a).toNat + 256 - (s.reg b).toNat) % 256 ∧
      PcMoved 3 s t ∧ KeptBut [a] [] s t) ∧
    (∃ t, exec (.mul a b) s = .next t ∧
      (t.reg a).toNat = ((s.reg a).toNat * (s.reg b).toNat) % 256 ∧
      PcMoved 3 s t ∧ KeptBut [a] [] s t)

/-- DIV and MOD: encoding; with a zero divisor DivisionByZero at the opcode's address with the opcode
byte and nothing else changed; else the unsigned quotient or remainder (40_alu.md R123, R124). The
opcode values these rules name are the spec's decision D1 (log 12). -/
def Obligations.DivModResults : Prop :=
  SpellsRR 0xA3 .div ∧ SpellsRR 0xA4 .mod ∧
  ∀ (a b : Reg) (s : State),
    (s.reg b = 0 →
      (∃ t, exec (.div a b) s = .next t ∧ FaultTaken .divisionByZero s.pc 0xA3 .instruction s t) ∧
      (∃ t, exec (.mod a b) s = .next t ∧ FaultTaken .divisionByZero s.pc 0xA4 .instruction s t)) ∧
    (s.reg b ≠ 0 →
      (∃ t, exec (.div a b) s = .next t ∧
        (t.reg a).toNat = (s.reg a).toNat / (s.reg b).toNat ∧
        PcMoved 3 s t ∧ KeptBut [a] [] s t) ∧
      (∃ t, exec (.mod a b) s = .next t ∧
        (t.reg a).toNat = (s.reg a).toNat % (s.reg b).toNat ∧
        PcMoved 3 s t ∧ KeptBut [a] [] s t))

/-- INC, DEC and NOT: encoding, result, and nothing else changed (40_alu.md R125, R126, R130). The
opcode values these rules name are the spec's decision D1 (log 12). -/
def Obligations.IncDecNotResults : Prop :=
  SpellsR 0x65 .inc ∧ SpellsR 0x66 .dec ∧ SpellsR 0x69 .not ∧
  ∀ (r : Reg) (s : State),
    (∃ t, exec (.inc r) s = .next t ∧ (t.reg r).toNat = ((s.reg r).toNat + 1) % 256 ∧
      PcMoved 2 s t ∧ KeptBut [r] [] s t) ∧
    (∃ t, exec (.dec r) s = .next t ∧ (t.reg r).toNat = ((s.reg r).toNat + 255) % 256 ∧
      PcMoved 2 s t ∧ KeptBut [r] [] s t) ∧
    (∃ t, exec (.not r) s = .next t ∧ (t.reg r).toNat = 255 - (s.reg r).toNat ∧
      PcMoved 2 s t ∧ KeptBut [r] [] s t)

/-- AND, OR and XOR: encoding, every bit of the result, and nothing else changed (40_alu.md R127,
R128, R129). The opcode values these rules name are the spec's decision D1 (log 12). -/
def Obligations.AndOrXorResults : Prop :=
  SpellsRR 0xA8 .and ∧ SpellsRR 0xAA .or ∧ SpellsRR 0xAB .xor ∧
  ∀ (a b : Reg) (s : State),
    (∃ t, exec (.and a b) s = .next t ∧
      (∀ k, (t.reg a).getLsbD k = ((s.reg a).getLsbD k && (s.reg b).getLsbD k)) ∧
      PcMoved 3 s t ∧ KeptBut [a] [] s t) ∧
    (∃ t, exec (.or a b) s = .next t ∧
      (∀ k, (t.reg a).getLsbD k = ((s.reg a).getLsbD k || (s.reg b).getLsbD k)) ∧
      PcMoved 3 s t ∧ KeptBut [a] [] s t) ∧
    (∃ t, exec (.xor a b) s = .next t ∧
      (∀ k, (t.reg a).getLsbD k = ((s.reg a).getLsbD k ^^ (s.reg b).getLsbD k)) ∧
      PcMoved 3 s t ∧ KeptBut [a] [] s t)

/-- SHL and SHR use the whole count, are logical, and change nothing else; a count of 8 or more gives 0
(40_alu.md R131, R132; the spec's decision D35). -/
def Obligations.ShiftResults : Prop :=
  SpellsRR 0xAC .shl ∧ SpellsRR 0xAD .shr ∧
  ∀ (a b : Reg) (s : State),
    (∃ t, exec (.shl a b) s = .next t ∧
      (t.reg a).toNat = ((s.reg a).toNat * 2 ^ (s.reg b).toNat) % 256 ∧
      (8 ≤ (s.reg b).toNat → t.reg a = 0) ∧ PcMoved 3 s t ∧ KeptBut [a] [] s t) ∧
    (∃ t, exec (.shr a b) s = .next t ∧
      (t.reg a).toNat = (s.reg a).toNat / 2 ^ (s.reg b).toNat ∧
      (8 ≤ (s.reg b).toNat → t.reg a = 0) ∧ PcMoved 3 s t ∧ KeptBut [a] [] s t)

/-- CMP writes FL = 00000LGE of the unsigned comparison, exactly one of the three set, and changes no
register and nothing else (40_alu.md R133; the spec's decisions D7, D9). -/
def Obligations.CompareSetsOneFlag : Prop :=
  SpellsRR 0xA7 .cmp ∧
  ∀ (a b : Reg) (s : State), ∃ t, exec (.cmp a b) s = .next t ∧
    ((s.reg a).toNat = (s.reg b).toNat → t.fl = 0b00000001) ∧
    ((s.reg a).toNat > (s.reg b).toNat → t.fl = 0b00000010) ∧
    ((s.reg a).toNat < (s.reg b).toNat → t.fl = 0b00000100) ∧
    PcMoved 3 s t ∧ CoreKept [] [] s t ∧ t.out = s.out

/-- The only fault executing an ALU instruction raises is DivisionByZero, by DIV or MOD with a zero
divisor: none overflows (40_alu.md R136). -/
def Obligations.AluFaultsOnlyOnZeroDivisor : Prop :=
  ∀ (a b : Reg) (s t : State) (i : Instr), s.run = .running →
    i ∈ [.add a b, .sub a b, .mul a b, .div a b, .mod a b, .inc a, .dec a, .and a b, .or a b,
      .xor a b, .not a, .shl a b, .shr a b, .cmp a b] →
    exec i s = .next t →
    (t.run = .faulted ↔ (i = .div a b ∨ i = .mod a b) ∧ s.reg b = 0) ∧
    (t.run = .faulted → t.fkind = .divisionByZero)

/-! ### Stack -/

/-- PUSH with room: the value read before the decrement at the new SP, for R7 too, and nothing else
changed (41_stack.md R160, R163; the spec's decisions D13, D15). -/
def Obligations.PushStoresBelowSp : Prop :=
  ∀ (r : Reg) (s : State), s.memOk → s.plim + 1 ≤ s.sp.toNat → s.sp.toNat ≤ 0xF3 →
    ∃ t, exec (.push r) s = .next t ∧
      t.read (s.sp - 1) = s.reg r ∧ t.sp.toNat = s.sp.toNat - 1 ∧
      PcMoved 2 s t ∧ KeptBut [.r7] [s.sp - 1] s t

/-- POP with a byte on the stack: the byte at SP to the register after SP is incremented, so POP R7
leaves the byte in R7; memory and everything else as before (41_stack.md R161, R164; the spec's
decisions D13, D15). -/
def Obligations.PopLoadsFromSp : Prop :=
  ∀ (r : Reg) (s : State), s.plim ≤ s.sp.toNat → s.sp.toNat ≤ 0xF2 →
    ∃ t, exec (.pop r) s = .next t ∧
      t.reg r = s.read s.sp ∧ (r ≠ .r7 → t.sp.toNat = s.sp.toNat + 1) ∧
      PcMoved 2 s t ∧ KeptBut [r, .r7] [] s t

/-- CALL with room: the address after the instruction pushed, the PC to the target read before the
push (for R7 the old SP), and nothing else changed (41_stack.md R165; the spec's decision D13). -/
def Obligations.CallPushesReturnAddress : Prop :=
  ∀ (r : Reg) (s : State), s.memOk → s.plim + 1 ≤ s.sp.toNat → s.sp.toNat ≤ 0xF3 →
    ∃ t, exec (.call r) s = .next t ∧
      t.pc = s.reg r ∧ (t.read (s.sp - 1)).toNat = (s.pc.toNat + 2) % 256 ∧
      t.sp.toNat = s.sp.toNat - 1 ∧ KeptBut [.r7] [s.sp - 1] s t

/-- RET with a byte on the stack: the byte at SP to the PC, SP incremented, and nothing else changed
(41_stack.md R166; the spec's decision D13). -/
def Obligations.RetPopsIntoPc : Prop :=
  ∀ s : State, s.plim ≤ s.sp.toNat → s.sp.toNat ≤ 0xF2 →
    ∃ t, exec .ret s = .next t ∧
      t.pc = s.read s.sp ∧ t.sp.toNat = s.sp.toNat + 1 ∧ KeptBut [.r7] [] s t

/-- PUSH and CALL outside the stack region: StackOverflow when the slot would lie below PLIM or below
address 0, else StackUnderflow when SP is above 0xF3; the fault reports the instruction and changes
nothing else (41_stack.md R162; the spec's decisions D13, D37). -/
def Obligations.PushAndCallStackFaults : Prop :=
  ∀ (r : Reg) (s : State),
    (s.sp.toNat < s.plim + 1 →
      (∃ t, exec (.push r) s = .next t ∧ FaultTaken .stackOverflow s.pc 0x45 .instruction s t) ∧
      (∃ t, exec (.call r) s = .next t ∧ FaultTaken .stackOverflow s.pc 0x50 .instruction s t)) ∧
    (s.plim + 1 ≤ s.sp.toNat → 0xF3 < s.sp.toNat →
      (∃ t, exec (.push r) s = .next t ∧ FaultTaken .stackUnderflow s.pc 0x45 .instruction s t) ∧
      (∃ t, exec (.call r) s = .next t ∧ FaultTaken .stackUnderflow s.pc 0x50 .instruction s t))

/-- POP and RET outside the stack region: StackUnderflow when the slot lies above 0xF2, else
StackOverflow when it lies below PLIM; the fault reports the instruction and changes nothing else
(41_stack.md R162; the spec's decisions D13, D37). -/
def Obligations.PopAndRetStackFaults : Prop :=
  ∀ (r : Reg) (s : State),
    (0xF2 < s.sp.toNat →
      (∃ t, exec (.pop r) s = .next t ∧ FaultTaken .stackUnderflow s.pc 0x46 .instruction s t) ∧
      (∃ t, exec .ret s = .next t ∧ FaultTaken .stackUnderflow s.pc 0x11 .instruction s t)) ∧
    (s.sp.toNat ≤ 0xF2 → s.sp.toNat < s.plim →
      (∃ t, exec (.pop r) s = .next t ∧ FaultTaken .stackOverflow s.pc 0x46 .instruction s t) ∧
      (∃ t, exec .ret s = .next t ∧ FaultTaken .stackOverflow s.pc 0x11 .instruction s t))

/-- PUSH Ri followed at once by POP Rj gives x[j] the value x[i] had and restores SP (a POP into R7
leaves the popped byte there instead); the slot keeps the byte (41_stack.md R167, which the spec
derives from R160, R161, R163 and R164). -/
def Obligations.PushThenPopRoundTrip : Prop :=
  ∀ (i j : Reg) (s : State), s.memOk → s.plim + 1 ≤ s.sp.toNat → s.sp.toNat ≤ 0xF3 →
    ∃ t u, exec (.push i) s = .next t ∧ exec (.pop j) t = .next u ∧
      u.reg j = s.reg i ∧ (j ≠ .r7 → u.sp = s.sp) ∧ u.read (s.sp - 1) = s.reg i ∧
      RegsKept [j, .r7] s u ∧ MemKept [s.sp - 1] s u

/-! ### Jumps -/

/-- Each jump goes to the address in its register exactly when its condition on E (bit 0), G (bit 1)
and L (bit 2) of FL holds, and past its two bytes otherwise; it changes only the PC (42_control.md
R180 to R187; the spec's decision D34). -/
def Obligations.JumpsFollowTheFlags : Prop :=
  ∀ (r : Reg) (s : State) (i : Instr) (taken : Bool),
    (i, taken) ∈
      [(.jmp r, true), (.jeq r, s.fl.getLsbD 0), (.jne r, !s.fl.getLsbD 0),
       (.jgt r, s.fl.getLsbD 1), (.jlt r, s.fl.getLsbD 2),
       (.jle r, s.fl.getLsbD 2 || s.fl.getLsbD 0), (.jge r, s.fl.getLsbD 1 || s.fl.getLsbD 0)] →
    ∃ t, exec i s = .next t ∧
      t.pc.toNat = (if taken then (s.reg r).toNat else (s.pc.toNat + 2) % 256) ∧ KeptBut [] [] s t

/-! ### Data movement and output -/

/-- LDI and LD: the immediate, or the byte of memory at the address in the second register, to the
first register; nothing else changed (43_data_io.md R200, R201; the spec's decision D1). -/
def Obligations.LdiAndLdLoadTheByte : Prop :=
  ∀ (a b : Reg) (imm : Byte) (s : State),
    (∃ t, exec (.ldi a imm) s = .next t ∧ t.reg a = imm ∧ PcMoved 3 s t ∧ KeptBut [a] [] s t) ∧
    (∃ t, exec (.ld a b) s = .next t ∧ t.reg a = s.read (s.reg b) ∧ PcMoved 3 s t ∧
      KeptBut [a] [] s t)

/-- ST stores the second register at the address in the first, and nothing else; at 0xF4 it is
discarded, with no fault (43_data_io.md R202; 20_memory.md R53, R56; the spec's decisions D1, D20). -/
def Obligations.StoreWritesOneByte : Prop :=
  ∀ (a b : Reg) (s : State), s.memOk →
    ∃ t, exec (.st a b) s = .next t ∧
      t.read (s.ea a) = (if s.ea a = 0xF4 then s.read 0xF4 else s.reg b) ∧
      PcMoved 3 s t ∧ KeptBut [] [s.ea a] s t

/-- A byte stored by ST into the next instruction is the byte its fetch reads (20_memory.md R64; the
spec's decision D33). -/
def Obligations.StoreIsSeenByTheNextFetch : Prop :=
  ∀ (a b : Reg) (k : Nat) (s : State), s.memOk → s.ea a ≠ 0xF4 →
    (s.ea a).toNat = (s.pc.toNat + 3 + k) % 256 →
    ∃ t, exec (.st a b) s = .next t ∧ t.fetchByte k = s.reg b

/-- PRN: encoding; it emits one item, the two's-complement reading of the register, and changes no
register, flag or memory cell, only the PC (43_data_io.md R203, R206; the opcode value is the spec's
decision D1). -/
def Obligations.PrnEmitsSignedValue : Prop :=
  SpellsR 0x47 .prn ∧
  ∀ (r : Reg) (s : State), ∃ t, exec (.prn r) s = .next t ∧
    t.out = s.out ++ [.num (if (s.reg r).toNat < 128 then ((s.reg r).toNat : Int)
      else ((s.reg r).toNat : Int) - 256)] ∧
    PcMoved 2 s t ∧ CoreKept [] [] s t ∧ t.fl = s.fl

/-- PRA emits one item, the register's byte as a character code, and changes only the PC
(43_data_io.md R204, R205; the spec's decision D25). -/
def Obligations.PraEmitsCharacter : Prop :=
  SpellsR 0x48 .pra ∧
  ∀ (r : Reg) (s : State), ∃ t, exec (.pra r) s = .next t ∧
    t.out = s.out ++ [.char (s.reg r)] ∧ PcMoved 2 s t ∧ CoreKept [] [] s t ∧ t.fl = s.fl

/-- Output comes from PRN and PRA only, one item each, in program order: no other step, faulting or
not, emits (43_data_io.md R205; the spec's decisions D25, D36). -/
def Obligations.OnlyPrnAndPraEmit : Prop :=
  ∀ s t : State, step s = .next t →
    t.out = s.out ∨
    ∃ r, (s.fetch = .ok (.prn r) ∧ t.out = s.out ++ [.num (s.reg r).toInt]) ∨
      (s.fetch = .ok (.pra r) ∧ t.out = s.out ++ [.char (s.reg r)])

/-! ### System instructions -/

/-- NOP changes only the PC (44_system.md R220; the spec's decision D2). -/
def Obligations.NopOnlyAdvancesPc : Prop :=
  ∀ s : State, ∃ t, exec .nop s = .next t ∧ PcMoved 1 s t ∧ KeptBut [] [] s t

/-- HLT halts with the PC past it; the step applies no waiting device event and takes no interrupt
(44_system.md R221; 30_encoding.md R101; the spec's decisions D16, D27). -/
def Obligations.HaltStopsWithoutBoundary : Prop :=
  (∀ s : State, ∃ t, exec .hlt s = .next t ∧ t.run = .halted ∧ PcMoved 1 s t ∧
    RegsKept [] s t ∧ MemKept [] s t ∧ t.fl = s.fl ∧ InterruptsKept s t ∧ DevicesKept s t ∧
    t.fkind = s.fkind ∧ t.faddr = s.faddr ∧ t.fbyte = s.fbyte ∧ t.fsrc = s.fsrc ∧
    t.out = s.out) ∧
  ∀ s : State, s.run = .running → s.read s.pc = 0x01 →
    ∃ t, step s = .next t ∧ t.run = .halted ∧ PcMoved 1 s t ∧ RegsKept [] s t ∧ MemKept [] s t ∧
      InterruptsKept s t ∧ t.kev = s.arrive.kev ∧ t.tev = s.arrive.tev

/-- INT of a line number up to 7 makes that line pending and changes nothing else but the PC; a greater
number raises InvalidOperand at the opcode's address with the register's value (44_system.md R222;
the spec's decision D24). -/
def Obligations.IntMakesLinePending : Prop :=
  ∀ (r : Reg) (s : State),
    ((s.reg r).toNat ≤ 7 →
      ∃ t, exec (.int r) s = .next t ∧
        (∀ k, k < 8 → t.is.getLsbD k = (s.is.getLsbD k || decide (k = (s.reg r).toNat))) ∧
        PcMoved 2 s t ∧ RegsKept [] s t ∧ MemKept [] s t ∧ t.fl = s.fl ∧ t.ie = s.ie ∧
        EngineKept s t ∧ DevicesKept s t ∧ t.out = s.out) ∧
    (7 < (s.reg r).toNat →
      ∃ t, exec (.int r) s = .next t ∧
        FaultTaken .invalidOperand s.pc (s.reg r) .instruction s t)

/-- IRET with its ten slots in the stack region: R7 is popped first and the other nine bytes from the
popped value; every register, FL (bits 2..0), PC and IE are written, IS and memory are not
(44_system.md R223; the spec's decisions D14, D15, D23, D39). -/
def Obligations.IretPopsTheFrame : Prop :=
  ∀ (s : State) (v : Byte), v = s.read s.sp →
    s.plim ≤ s.sp.toNat → s.sp.toNat ≤ 0xF2 → s.plim ≤ v.toNat → v.toNat + 8 ≤ 0xF2 →
    ∃ t, exec .iret s = .next t ∧
      t.reg .r7 = v + 9 ∧ t.reg .r6 = s.read v ∧ t.reg .r5 = s.read (v + 1) ∧
      t.reg .r4 = s.read (v + 2) ∧ t.reg .r3 = s.read (v + 3) ∧ t.reg .r2 = s.read (v + 4) ∧
      t.reg .r1 = s.read (v + 5) ∧ t.reg .r0 = s.read (v + 6) ∧
      t.fl = s.read (v + 7) &&& 0b00000111 ∧ t.pc = s.read (v + 8) ∧ t.ie = true ∧
      t.is = s.is ∧ MemKept [] s t ∧ EngineKept s t ∧ DevicesKept s t ∧ t.out = s.out

/-- IRET with a slot outside the stack region faults and changes nothing else, the first pop's slot
tested before the other nine (44_system.md R223; 41_stack.md R162, R169; the spec's decisions D13,
D14, D37). -/
def Obligations.IretStackFaults : Prop :=
  ∀ s : State,
    (0xF2 < s.sp.toNat ∨
      (s.plim ≤ s.sp.toNat ∧ s.sp.toNat ≤ 0xF2 ∧ 0xF2 < (s.read s.sp).toNat + 8) →
      ∃ t, exec .iret s = .next t ∧ FaultTaken .stackUnderflow s.pc 0x13 .instruction s t) ∧
    ((s.sp.toNat ≤ 0xF2 ∧ s.sp.toNat < s.plim) ∨
      (s.plim ≤ s.sp.toNat ∧ s.sp.toNat ≤ 0xF2 ∧ (s.read s.sp).toNat + 8 ≤ 0xF2 ∧
        (s.read s.sp).toNat < s.plim) →
      ∃ t, exec .iret s = .next t ∧ FaultTaken .stackOverflow s.pc 0x13 .instruction s t)

/-! ### Interrupts -/

/-- Interrupt entry with room for ten bytes: PC, FL and x[0] .. x[7] pushed in that order (the R7 byte
is s - 9), the line's pending bit cleared and no other, IE cleared, the PC from the vector, and
nothing else changed (60_exceptions.md R253; the spec's decisions D14, D15, D22). -/
def Obligations.EntrySavesTheContext : Prop :=
  ∀ (s : State) (n : Nat), n < 8 → s.memOk → s.flOk →
    s.plim + 10 ≤ s.sp.toNat → s.sp.toNat ≤ 0xF3 →
    ∃ t, s.enter n = t ∧
      t.sp.toNat = s.sp.toNat - 10 ∧
      t.read (s.sp - 1) = s.pc ∧ t.read (s.sp - 2) = s.fl ∧
      t.read (s.sp - 3) = s.reg .r0 ∧ t.read (s.sp - 4) = s.reg .r1 ∧
      t.read (s.sp - 5) = s.reg .r2 ∧ t.read (s.sp - 6) = s.reg .r3 ∧
      t.read (s.sp - 7) = s.reg .r4 ∧ t.read (s.sp - 8) = s.reg .r5 ∧
      t.read (s.sp - 9) = s.reg .r6 ∧ t.read (s.sp - 10) = s.sp - 9 ∧
      (∀ k, k < 8 → t.is.getLsbD k = (s.is.getLsbD k && decide (k ≠ n))) ∧
      t.ie = false ∧ t.pc = s.read (0xF8 + BitVec.ofNat 8 n) ∧
      RegsKept [.r7] s t ∧
      MemKept [s.sp - 1, s.sp - 2, s.sp - 3, s.sp - 4, s.sp - 5, s.sp - 6, s.sp - 7, s.sp - 8,
        s.sp - 9, s.sp - 10] s t ∧
      t.fl = s.fl ∧ EngineKept s t ∧ DevicesKept s t ∧ t.out = s.out

/-- Interrupt entry without room: StackOverflow, else StackUnderflow, with FSRC = entry, FADDR = the PC
that would have been pushed and FBYTE = the line; nothing else changes (60_exceptions.md R254;
the spec's decisions D11, D14). -/
def Obligations.EntryStackFaults : Prop :=
  ∀ (s : State) (n : Nat), n < 8 →
    (s.sp.toNat < s.plim + 10 →
      FaultTaken .stackOverflow s.pc (BitVec.ofNat 8 n) .entry s (s.enter n)) ∧
    (s.plim + 10 ≤ s.sp.toNat → 0xF3 < s.sp.toNat →
      FaultTaken .stackUnderflow s.pc (BitVec.ofNat 8 n) .entry s (s.enter n))

/-- The poll enters the lowest-numbered line that is pending in IS and unmasked in R5, if IE = 1, and
does nothing otherwise (60_exceptions.md R250, R251; the spec's decisions D4, D6, D16). -/
def Obligations.PollEntersLowestLine : Prop :=
  ∀ s : State,
    (s.ie = false → s.poll = s) ∧
    ((∀ k, k < 8 → ¬ (s.is.getLsbD k = true ∧ (s.reg .r5).getLsbD k = true)) → s.poll = s) ∧
    (∀ n, n < 8 → s.ie = true → s.is.getLsbD n = true → (s.reg .r5).getLsbD n = true →
      (∀ k, k < n → ¬ (s.is.getLsbD k = true ∧ (s.reg .r5).getLsbD k = true)) →
      s.poll = s.enter n)

/-- At the boundary of an instruction that leaves the core running, a waiting key code is written to
0xF4 and makes line 1 pending, a waiting timer event makes line 0 pending, both latches are cleared,
nothing else changes, and the poll follows; there is no boundary otherwise (60_exceptions.md R260,
R264; 30_encoding.md R101; the spec's decisions D16, D17). -/
def Obligations.BoundaryAppliesDeviceEvents : Prop :=
  ∀ s : State,
    (s.run ≠ .running → s.boundary = s) ∧
    (s.run = .running → s.memOk →
      ∃ b : State, s.boundary = b.poll ∧
        (∀ a : Byte, b.read a = if s.kev = true ∧ a = 0xF4 then s.kbyte else s.read a) ∧
        (∀ k, k < 8 → b.is.getLsbD k =
          (s.is.getLsbD k || (s.kev && decide (k = 1)) || (s.tev && decide (k = 0)))) ∧
        b.kev = false ∧ b.tev = false ∧ RegsKept [] s b ∧ b.pc = s.pc ∧ b.fl = s.fl ∧
        b.ie = s.ie ∧ EngineKept s b ∧ b.plim = s.plim ∧ b.tcnt = s.tcnt ∧ b.kbyte = s.kbyte ∧
        b.inputs = s.inputs ∧ b.draws = s.draws ∧ b.out = s.out)

/-- Every list of ticks and keys that reaches a running core before one boundary, in any order, is
taken into the latches: the last key's code is the one kept and makes a key event wait, no key
leaves both as they were, and the ticks advance the counter modulo TIMER_PERIOD and make a timer
event wait exactly when the period is reached (60_exceptions.md R262, R264, R265; the spec's
decisions D17, D18, D19). In a step these inputs are the entry settled for it or, with none settled,
a free draw of which nothing is known (R263, R265; log 3), taken in at the step's beginning
(log 4). -/
def Obligations.InputsReachTheLatches : Prop :=
  ∀ s : State, s.run = .running → s.timerOk →
    (∀ es : List DeviceInput, Latched es s (s.deviceInputs es)) ∧
    (∀ (now : List DeviceInput) (later : List (List DeviceInput)), s.inputs = now :: later →
      Latched now s s.arrive ∧ s.arrive.inputs = later) ∧
    (s.inputs = [] → Latched (Config.arrivals s.draws) s s.arrive ∧ s.arrive.inputs = [])

/-- Entry and return: if a handler leaves the ten frame slots, R7 and PLIM as entry left them, IRET
restores every general register (SP among them), FL and PC to what they were before the entry and
sets IE; IS is not restored (60_exceptions.md R256, which the spec derives from R253 and R223). -/
def Obligations.InterruptReturnRestoresContext : Prop :=
  ∀ (s u : State) (n : Nat), n < 8 → s.memOk → s.flOk →
    s.plim + 10 ≤ s.sp.toNat → s.sp.toNat ≤ 0xF3 →
    u.plim = s.plim → u.sp = (s.enter n).sp →
    (∀ k, 1 ≤ k → k ≤ 10 →
      u.read (s.sp - BitVec.ofNat 8 k) = (s.enter n).read (s.sp - BitVec.ofNat 8 k)) →
    ∃ t, exec .iret u = .next t ∧ (∀ r, t.reg r = s.reg r) ∧ t.fl = s.fl ∧ t.pc = s.pc ∧
      t.ie = true ∧ t.is = u.is

/-- A pending line stays pending over a step, unless the step's boundary enters that very line, which
it does only while servicing is enabled and the line is unmasked (60_exceptions.md R252, R258). -/
def Obligations.PendingLineStaysUntilEntered : Prop :=
  ∀ (s t : State) (n : Nat), n < 8 → step s = .next t → s.is.getLsbD n = true →
    t.is.getLsbD n = true ∨
    ∃ (i : Instr) (u : State), s.fetch = .ok i ∧ exec i s.arrive = .next u ∧
      u.ie = true ∧ (u.reg .r5).getLsbD n = true ∧ t = u.applyKey.applyTimer.enter n

/-- IE rises only by IRET and falls only by an interrupt entry at the step's boundary, on an unmasked
line (10_state.md R28; 60_exceptions.md R257; the spec's decision D6). -/
def Obligations.OnlyIretAndEntryChangeIe : Prop :=
  ∀ s t : State, step s = .next t →
    (s.ie = false → t.ie = true → s.fetch = .ok .iret) ∧
    (s.ie = true → t.ie = false → ∃ (i : Instr) (u : State) (n : Nat), s.fetch = .ok i ∧
      exec i s.arrive = .next u ∧ n < 8 ∧ (u.reg .r5).getLsbD n = true ∧
      t = u.applyKey.applyTimer.enter n)

/-- While servicing is disabled, an instruction other than IRET is followed by no interrupt entry, not
even by one that faults: the step leaves RUN, the fault record, the registers, the PC and FL as the
instruction left them, and servicing disabled (60_exceptions.md R257; the spec's decision D6). -/
def Obligations.HandlerIsNotInterrupted : Prop :=
  ∀ (s u : State) (i : Instr), s.run = .running → s.ie = false → s.fetch = .ok i → i ≠ .iret →
    exec i s.arrive = .next u →
    ∃ t, step s = .next t ∧ EngineKept u t ∧ t.regs = u.regs ∧ t.pc = u.pc ∧ t.fl = u.fl ∧
      t.ie = false

/-! ### Rules of the whole machine -/

/-- A step changes FL only by CMP or IRET (10_state.md R26; the spec's decisions D7, D8). -/
def Obligations.OnlyCmpAndIretWriteFlags : Prop :=
  ∀ s t : State, step s = .next t → t.fl ≠ s.fl →
    s.fetch = .ok .iret ∨ ∃ a b, s.fetch = .ok (.cmp a b)

/-- The keyboard register changes only by a key event applied at the boundary: no instruction and no
interrupt entry writes it (20_memory.md R56; the spec's decision D20). -/
def Obligations.OnlyTheKeyboardWritesItsCell : Prop :=
  ∀ s t : State, s.memOk → step s = .next t →
    t.read 0xF4 = s.read 0xF4 ∨ (s.arrive.kev = true ∧ t.read 0xF4 = s.arrive.kbyte)

/-- Outside the stack region PLIM .. 0xF2 and the keyboard register, memory changes only by ST, at the
address in its register: only ST writes the program region, 0xF3, 0xF5 .. 0xF7 and the vectors
(20_memory.md R59, which the spec derives; 41_stack.md R162). -/
def Obligations.OnlyStWritesOutsideTheStack : Prop :=
  ∀ (s t : State) (a : Byte), step s = .next t → a ≠ 0xF4 →
    (a.toNat < s.plim ∨ 0xF2 < a.toNat) → t.read a ≠ s.read a →
    ∃ x y, s.fetch = .ok (.st x y) ∧ s.ea x = a

/-- A fault is precise. Raised by an instruction, it leaves everything but RUN and the record as it was
at the start of the step, that step's inputs taken into the latches (log 4); raised by an interrupt
entry, as it was when the entry began, the instruction completed and the waiting events applied
(60_exceptions.md R241, R243, R254; the spec's decisions D11, D12, D14). -/
def Obligations.FaultsArePrecise : Prop :=
  ∀ s t : State, step s = .next t → t.run = .faulted →
    FaultTaken t.fkind t.faddr t.fbyte .instruction s.arrive t ∨
    ∃ (i : Instr) (u : State), s.fetch = .ok i ∧ exec i s.arrive = .next u ∧ u.run = .running ∧
      FaultTaken t.fkind u.pc t.fbyte .entry u.applyKey.applyTimer t

/-- An instruction that completes and is not a control transfer (CALL, RET, IRET or a jump) leaves the
PC past its own bytes (30_encoding.md R102, which the spec derives). -/
def Obligations.OtherInstructionsAdvancePastTheirBytes : Prop :=
  ∀ (i : Instr) (s t : State), s.run = .running → exec i s = .next t → t.run ≠ .faulted →
    PcMoved (encode i).length s t ∨
    ∃ r, i = .call r ∨ i = .ret ∨ i = .iret ∨ i = .jmp r ∨ i = .jeq r ∨ i = .jne r ∨ i = .jgt r ∨
      i = .jlt r ∨ i = .jle r ∨ i = .jge r

/-- The timer counter, the event latches and the draws of inputs are invisible to every
instruction: with other values of them, its effect is the same and they are left alone
(10_state.md R33, R34; the spec's decisions D17, D19). -/
def Obligations.InstructionsDoNotSeeDeviceState : Prop :=
  ∀ (i : Instr) (s t : State) (tcnt : Nat) (tev kev : Bool) (kbyte : Byte)
    (inputs : List (List DeviceInput)) (draws : Nat),
    exec i s = .next t →
    exec i { s with
        tcnt := tcnt, tev := tev, kev := kev, kbyte := kbyte, inputs := inputs, draws := draws } =
      .next { t with
        tcnt := tcnt, tev := tev, kev := kev, kbyte := kbyte, inputs := inputs, draws := draws }

/-- No step changes PLIM (10_state.md R32; the spec's decision D13). -/
def Obligations.StepKeepsProgramLimit : Prop :=
  ∀ s t : State, step s = .next t → t.plim = s.plim
end

