-- ==== Sys2Proof/Laws/Decode.lean ====
section
/-! SUPPORT. The decoder's tables: no two rows overlap, and what register operand bytes give. -/

namespace Sys2Proof

/-- No opcode byte stands in two rows of the opcode map. -/
theorem opRows_no_overlap : opRows.Pairwise (fun x y => x.opcode ≠ y.opcode) := by decide

/-- The map has the 34 rows of 30_encoding.md R88. -/
theorem opRows_length : opRows.length = 34 := rfl

@[simp] theorem regOfByte_regByte (r : Reg) : regOfByte (regByte r) = some r := by cases r <;> rfl

@[simp] theorem regOperand_regByte (pos : Nat) (r : Reg) : regOperand pos (regByte r) = .ok r := by
  cases r <;> rfl

/-- A byte names the register whose operand byte it is, and no other. -/
theorem regOfByte_eq_some {b : Byte} {r : Reg} : regOfByte b = some r ↔ b = regByte r := by
  have key : ∀ b : Byte, ∀ r : Reg, regOfByte b = some r → b = regByte r := by
    intro b r h
    unfold regOfByte at h
    split at h
    all_goals first
      | (cases h; rename_i hb; exact BitVec.eq_of_toNat_eq hb)
      | cases h
  exact ⟨key b r, fun h => h ▸ regOfByte_regByte r⟩

/-- A byte above 7 names no register (30_encoding.md R85). -/
theorem regOfByte_eq_none {b : Byte} : regOfByte b = none ↔ 7 < b.toNat := by
  have key : ∀ b : Byte, regOfByte b = none ↔ 7 < b.toNat := by decide
  exact key b

theorem regOperand_of_gt (pos : Nat) {b : Byte} (h : 7 < b.toNat) :
    regOperand pos b = .error (.invalidOperand pos b) := by
  unfold regOperand
  rw [regOfByte_eq_none.2 h]

/-- A register operand byte up to 7 is some register's. -/
theorem exists_regByte_of_le {b : Byte} (h : b.toNat ≤ 7) : ∃ r, b = regByte r := by
  cases hr : regOfByte b with
  | none =>
    have := regOfByte_eq_none.1 hr
    omega
  | some r => exact ⟨r, regOfByte_eq_some.1 hr⟩

theorem regOperand_eq_ok {pos : Nat} {b : Byte} {r : Reg} :
    regOperand pos b = .ok r ↔ b = regByte r := by
  unfold regOperand
  cases h : regOfByte b with
  | none =>
    constructor
    · intro h'
      cases h'
    · rintro rfl
      simp at h
  | some q =>
    have hq := regOfByte_eq_some.1 h
    subst hq
    constructor
    · intro h'
      cases h'
      rfl
    · intro h'
      have := congrArg regOfByte h'
      simp only [regOfByte_regByte, Option.some.injEq] at this
      rw [this]

theorem regOperand_eq_error {pos : Nat} {b : Byte} {e : Reject} :
    regOperand pos b = .error e ↔ 7 < b.toNat ∧ e = .invalidOperand pos b := by
  constructor
  · intro h
    cases hb : regOfByte b with
    | none =>
      have h7 := regOfByte_eq_none.1 hb
      rw [regOperand_of_gt pos h7] at h
      cases h
      exact ⟨h7, rfl⟩
    | some q => simp [regOperand, hb] at h
  · rintro ⟨h, rfl⟩
    exact regOperand_of_gt pos h

theorem decode_r_ok {op : Byte} {mk : Reg → Instr} (h : opShape op = some (.r mk)) (r : Reg)
    (b2 : Byte) : decode op (regByte r) b2 = .ok (mk r) := by
  unfold decode
  rw [h]
  dsimp only
  rw [regOperand_regByte]

theorem decode_ri_ok {op : Byte} {mk : Reg → Byte → Instr} (h : opShape op = some (.ri mk))
    (r : Reg) (b2 : Byte) : decode op (regByte r) b2 = .ok (mk r b2) := by
  unfold decode
  rw [h]
  dsimp only
  rw [regOperand_regByte]

theorem decode_rr_ok {op : Byte} {mk : Reg → Reg → Instr} (h : opShape op = some (.rr mk))
    (a b : Reg) : decode op (regByte a) (regByte b) = .ok (mk a b) := by
  unfold decode
  rw [h]
  dsimp only
  rw [regOperand_regByte]
  dsimp only
  rw [regOperand_regByte]

/-- All a format R decoding can do. -/
theorem decode_r {op : Byte} {mk : Reg → Instr} (h : opShape op = some (.r mk)) (b1 b2 : Byte) :
    (∃ r, b1 = regByte r ∧ decode op b1 b2 = .ok (mk r)) ∨
    (7 < b1.toNat ∧ decode op b1 b2 = .error (.invalidOperand 1 b1)) := by
  unfold decode
  rw [h]
  cases hr : regOperand 1 b1 with
  | ok r => exact .inl ⟨r, regOperand_eq_ok.1 hr, rfl⟩
  | error e =>
    obtain ⟨h7, rfl⟩ := regOperand_eq_error.1 hr
    exact .inr ⟨h7, rfl⟩

/-- All a format RI decoding can do. -/
theorem decode_ri {op : Byte} {mk : Reg → Byte → Instr} (h : opShape op = some (.ri mk))
    (b1 b2 : Byte) :
    (∃ r, b1 = regByte r ∧ decode op b1 b2 = .ok (mk r b2)) ∨
    (7 < b1.toNat ∧ decode op b1 b2 = .error (.invalidOperand 1 b1)) := by
  unfold decode
  rw [h]
  cases hr : regOperand 1 b1 with
  | ok r => exact .inl ⟨r, regOperand_eq_ok.1 hr, rfl⟩
  | error e =>
    obtain ⟨h7, rfl⟩ := regOperand_eq_error.1 hr
    exact .inr ⟨h7, rfl⟩

/-- All a format RR decoding can do. -/
theorem decode_rr {op : Byte} {mk : Reg → Reg → Instr} (h : opShape op = some (.rr mk))
    (b1 b2 : Byte) :
    (∃ a b, b1 = regByte a ∧ b2 = regByte b ∧ decode op b1 b2 = .ok (mk a b)) ∨
    (7 < b1.toNat ∧ decode op b1 b2 = .error (.invalidOperand 1 b1)) ∨
    (b1.toNat ≤ 7 ∧ 7 < b2.toNat ∧ decode op b1 b2 = .error (.invalidOperand 2 b2)) := by
  unfold decode
  rw [h]
  cases ha : regOperand 1 b1 with
  | error e =>
    obtain ⟨h7, rfl⟩ := regOperand_eq_error.1 ha
    exact .inr (.inl ⟨h7, rfl⟩)
  | ok a =>
    have h1 : b1.toNat ≤ 7 := by
      rw [regOperand_eq_ok.1 ha]
      cases a <;> decide
    cases hb : regOperand 2 b2 with
    | error e =>
      obtain ⟨h7, rfl⟩ := regOperand_eq_error.1 hb
      exact .inr (.inr ⟨h1, h7, rfl⟩)
    | ok b => exact .inl ⟨a, b, regOperand_eq_ok.1 ha, regOperand_eq_ok.1 hb, rfl⟩

end Sys2Proof
end

