-- ==== Sys2Proof/Laws/State.lean ====
section
/-! SUPPORT. One lemma per field per update of the state, each true by rfl, so that no proof unfolds
a record update. -/

namespace Sys2Proof.Machine

variable (s : State)

/-! ### State.setReg -/

@[simp] theorem State.setReg_regs (r : Reg) (v : Byte) : (s.setReg r v).regs = s.regs.set r v := rfl
@[simp] theorem State.setReg_pc (r : Reg) (v : Byte) : (s.setReg r v).pc = s.pc := rfl
@[simp] theorem State.setReg_fl (r : Reg) (v : Byte) : (s.setReg r v).fl = s.fl := rfl
@[simp] theorem State.setReg_is (r : Reg) (v : Byte) : (s.setReg r v).is = s.is := rfl
@[simp] theorem State.setReg_ie (r : Reg) (v : Byte) : (s.setReg r v).ie = s.ie := rfl
@[simp] theorem State.setReg_run (r : Reg) (v : Byte) : (s.setReg r v).run = s.run := rfl
@[simp] theorem State.setReg_fkind (r : Reg) (v : Byte) : (s.setReg r v).fkind = s.fkind := rfl
@[simp] theorem State.setReg_faddr (r : Reg) (v : Byte) : (s.setReg r v).faddr = s.faddr := rfl
@[simp] theorem State.setReg_fbyte (r : Reg) (v : Byte) : (s.setReg r v).fbyte = s.fbyte := rfl
@[simp] theorem State.setReg_fsrc (r : Reg) (v : Byte) : (s.setReg r v).fsrc = s.fsrc := rfl
@[simp] theorem State.setReg_plim (r : Reg) (v : Byte) : (s.setReg r v).plim = s.plim := rfl
@[simp] theorem State.setReg_tcnt (r : Reg) (v : Byte) : (s.setReg r v).tcnt = s.tcnt := rfl
@[simp] theorem State.setReg_tev (r : Reg) (v : Byte) : (s.setReg r v).tev = s.tev := rfl
@[simp] theorem State.setReg_kev (r : Reg) (v : Byte) : (s.setReg r v).kev = s.kev := rfl
@[simp] theorem State.setReg_kbyte (r : Reg) (v : Byte) : (s.setReg r v).kbyte = s.kbyte := rfl
@[simp] theorem State.setReg_mem (r : Reg) (v : Byte) : (s.setReg r v).mem = s.mem := rfl
@[simp] theorem State.setReg_inputs (r : Reg) (v : Byte) : (s.setReg r v).inputs = s.inputs := rfl
@[simp] theorem State.setReg_draws (r : Reg) (v : Byte) : (s.setReg r v).draws = s.draws := rfl
@[simp] theorem State.setReg_out (r : Reg) (v : Byte) : (s.setReg r v).out = s.out := rfl
@[simp] theorem State.setReg_read (r : Reg) (v : Byte) (c : Byte) : (s.setReg r v).read c = s.read c := rfl
@[simp] theorem State.setReg_readFl (r : Reg) (v : Byte) : (s.setReg r v).readFl = s.readFl := rfl

/-! ### State.setSp -/

@[simp] theorem State.setSp_regs (v : Byte) : (s.setSp v).regs = s.regs.set .r7 v := rfl
@[simp] theorem State.setSp_pc (v : Byte) : (s.setSp v).pc = s.pc := rfl
@[simp] theorem State.setSp_fl (v : Byte) : (s.setSp v).fl = s.fl := rfl
@[simp] theorem State.setSp_is (v : Byte) : (s.setSp v).is = s.is := rfl
@[simp] theorem State.setSp_ie (v : Byte) : (s.setSp v).ie = s.ie := rfl
@[simp] theorem State.setSp_run (v : Byte) : (s.setSp v).run = s.run := rfl
@[simp] theorem State.setSp_fkind (v : Byte) : (s.setSp v).fkind = s.fkind := rfl
@[simp] theorem State.setSp_faddr (v : Byte) : (s.setSp v).faddr = s.faddr := rfl
@[simp] theorem State.setSp_fbyte (v : Byte) : (s.setSp v).fbyte = s.fbyte := rfl
@[simp] theorem State.setSp_fsrc (v : Byte) : (s.setSp v).fsrc = s.fsrc := rfl
@[simp] theorem State.setSp_plim (v : Byte) : (s.setSp v).plim = s.plim := rfl
@[simp] theorem State.setSp_tcnt (v : Byte) : (s.setSp v).tcnt = s.tcnt := rfl
@[simp] theorem State.setSp_tev (v : Byte) : (s.setSp v).tev = s.tev := rfl
@[simp] theorem State.setSp_kev (v : Byte) : (s.setSp v).kev = s.kev := rfl
@[simp] theorem State.setSp_kbyte (v : Byte) : (s.setSp v).kbyte = s.kbyte := rfl
@[simp] theorem State.setSp_mem (v : Byte) : (s.setSp v).mem = s.mem := rfl
@[simp] theorem State.setSp_inputs (v : Byte) : (s.setSp v).inputs = s.inputs := rfl
@[simp] theorem State.setSp_draws (v : Byte) : (s.setSp v).draws = s.draws := rfl
@[simp] theorem State.setSp_out (v : Byte) : (s.setSp v).out = s.out := rfl
@[simp] theorem State.setSp_read (v : Byte) (c : Byte) : (s.setSp v).read c = s.read c := rfl
@[simp] theorem State.setSp_readFl (v : Byte) : (s.setSp v).readFl = s.readFl := rfl

/-! ### State.jump -/

@[simp] theorem State.jump_regs (a : Byte) : (s.jump a).regs = s.regs := rfl
@[simp] theorem State.jump_pc (a : Byte) : (s.jump a).pc = a := rfl
@[simp] theorem State.jump_fl (a : Byte) : (s.jump a).fl = s.fl := rfl
@[simp] theorem State.jump_is (a : Byte) : (s.jump a).is = s.is := rfl
@[simp] theorem State.jump_ie (a : Byte) : (s.jump a).ie = s.ie := rfl
@[simp] theorem State.jump_run (a : Byte) : (s.jump a).run = s.run := rfl
@[simp] theorem State.jump_fkind (a : Byte) : (s.jump a).fkind = s.fkind := rfl
@[simp] theorem State.jump_faddr (a : Byte) : (s.jump a).faddr = s.faddr := rfl
@[simp] theorem State.jump_fbyte (a : Byte) : (s.jump a).fbyte = s.fbyte := rfl
@[simp] theorem State.jump_fsrc (a : Byte) : (s.jump a).fsrc = s.fsrc := rfl
@[simp] theorem State.jump_plim (a : Byte) : (s.jump a).plim = s.plim := rfl
@[simp] theorem State.jump_tcnt (a : Byte) : (s.jump a).tcnt = s.tcnt := rfl
@[simp] theorem State.jump_tev (a : Byte) : (s.jump a).tev = s.tev := rfl
@[simp] theorem State.jump_kev (a : Byte) : (s.jump a).kev = s.kev := rfl
@[simp] theorem State.jump_kbyte (a : Byte) : (s.jump a).kbyte = s.kbyte := rfl
@[simp] theorem State.jump_mem (a : Byte) : (s.jump a).mem = s.mem := rfl
@[simp] theorem State.jump_inputs (a : Byte) : (s.jump a).inputs = s.inputs := rfl
@[simp] theorem State.jump_draws (a : Byte) : (s.jump a).draws = s.draws := rfl
@[simp] theorem State.jump_out (a : Byte) : (s.jump a).out = s.out := rfl
@[simp] theorem State.jump_reg (a : Byte) (q : Reg) : (s.jump a).reg q = s.reg q := rfl
@[simp] theorem State.jump_sp (a : Byte) : (s.jump a).sp = s.sp := rfl
@[simp] theorem State.jump_read (a : Byte) (c : Byte) : (s.jump a).read c = s.read c := rfl
@[simp] theorem State.jump_readFl (a : Byte) : (s.jump a).readFl = s.readFl := rfl

/-! ### State.advance -/

@[simp] theorem State.advance_regs (n : Nat) : (s.advance n).regs = s.regs := rfl
@[simp] theorem State.advance_pc (n : Nat) : (s.advance n).pc = s.pcAfter n := rfl
@[simp] theorem State.advance_fl (n : Nat) : (s.advance n).fl = s.fl := rfl
@[simp] theorem State.advance_is (n : Nat) : (s.advance n).is = s.is := rfl
@[simp] theorem State.advance_ie (n : Nat) : (s.advance n).ie = s.ie := rfl
@[simp] theorem State.advance_run (n : Nat) : (s.advance n).run = s.run := rfl
@[simp] theorem State.advance_fkind (n : Nat) : (s.advance n).fkind = s.fkind := rfl
@[simp] theorem State.advance_faddr (n : Nat) : (s.advance n).faddr = s.faddr := rfl
@[simp] theorem State.advance_fbyte (n : Nat) : (s.advance n).fbyte = s.fbyte := rfl
@[simp] theorem State.advance_fsrc (n : Nat) : (s.advance n).fsrc = s.fsrc := rfl
@[simp] theorem State.advance_plim (n : Nat) : (s.advance n).plim = s.plim := rfl
@[simp] theorem State.advance_tcnt (n : Nat) : (s.advance n).tcnt = s.tcnt := rfl
@[simp] theorem State.advance_tev (n : Nat) : (s.advance n).tev = s.tev := rfl
@[simp] theorem State.advance_kev (n : Nat) : (s.advance n).kev = s.kev := rfl
@[simp] theorem State.advance_kbyte (n : Nat) : (s.advance n).kbyte = s.kbyte := rfl
@[simp] theorem State.advance_mem (n : Nat) : (s.advance n).mem = s.mem := rfl
@[simp] theorem State.advance_inputs (n : Nat) : (s.advance n).inputs = s.inputs := rfl
@[simp] theorem State.advance_draws (n : Nat) : (s.advance n).draws = s.draws := rfl
@[simp] theorem State.advance_out (n : Nat) : (s.advance n).out = s.out := rfl
@[simp] theorem State.advance_reg (n : Nat) (q : Reg) : (s.advance n).reg q = s.reg q := rfl
@[simp] theorem State.advance_sp (n : Nat) : (s.advance n).sp = s.sp := rfl
@[simp] theorem State.advance_read (n : Nat) (c : Byte) : (s.advance n).read c = s.read c := rfl
@[simp] theorem State.advance_readFl (n : Nat) : (s.advance n).readFl = s.readFl := rfl

/-! ### State.writeFl -/

@[simp] theorem State.writeFl_regs (v : Byte) : (s.writeFl v).regs = s.regs := rfl
@[simp] theorem State.writeFl_pc (v : Byte) : (s.writeFl v).pc = s.pc := rfl
@[simp] theorem State.writeFl_fl (v : Byte) : (s.writeFl v).fl = v &&& flMask := rfl
@[simp] theorem State.writeFl_is (v : Byte) : (s.writeFl v).is = s.is := rfl
@[simp] theorem State.writeFl_ie (v : Byte) : (s.writeFl v).ie = s.ie := rfl
@[simp] theorem State.writeFl_run (v : Byte) : (s.writeFl v).run = s.run := rfl
@[simp] theorem State.writeFl_fkind (v : Byte) : (s.writeFl v).fkind = s.fkind := rfl
@[simp] theorem State.writeFl_faddr (v : Byte) : (s.writeFl v).faddr = s.faddr := rfl
@[simp] theorem State.writeFl_fbyte (v : Byte) : (s.writeFl v).fbyte = s.fbyte := rfl
@[simp] theorem State.writeFl_fsrc (v : Byte) : (s.writeFl v).fsrc = s.fsrc := rfl
@[simp] theorem State.writeFl_plim (v : Byte) : (s.writeFl v).plim = s.plim := rfl
@[simp] theorem State.writeFl_tcnt (v : Byte) : (s.writeFl v).tcnt = s.tcnt := rfl
@[simp] theorem State.writeFl_tev (v : Byte) : (s.writeFl v).tev = s.tev := rfl
@[simp] theorem State.writeFl_kev (v : Byte) : (s.writeFl v).kev = s.kev := rfl
@[simp] theorem State.writeFl_kbyte (v : Byte) : (s.writeFl v).kbyte = s.kbyte := rfl
@[simp] theorem State.writeFl_mem (v : Byte) : (s.writeFl v).mem = s.mem := rfl
@[simp] theorem State.writeFl_inputs (v : Byte) : (s.writeFl v).inputs = s.inputs := rfl
@[simp] theorem State.writeFl_draws (v : Byte) : (s.writeFl v).draws = s.draws := rfl
@[simp] theorem State.writeFl_out (v : Byte) : (s.writeFl v).out = s.out := rfl
@[simp] theorem State.writeFl_reg (v : Byte) (q : Reg) : (s.writeFl v).reg q = s.reg q := rfl
@[simp] theorem State.writeFl_sp (v : Byte) : (s.writeFl v).sp = s.sp := rfl
@[simp] theorem State.writeFl_read (v : Byte) (c : Byte) : (s.writeFl v).read c = s.read c := rfl

/-! ### State.deviceWrite -/

@[simp] theorem State.deviceWrite_regs (a v : Byte) : (s.deviceWrite a v).regs = s.regs := rfl
@[simp] theorem State.deviceWrite_pc (a v : Byte) : (s.deviceWrite a v).pc = s.pc := rfl
@[simp] theorem State.deviceWrite_fl (a v : Byte) : (s.deviceWrite a v).fl = s.fl := rfl
@[simp] theorem State.deviceWrite_is (a v : Byte) : (s.deviceWrite a v).is = s.is := rfl
@[simp] theorem State.deviceWrite_ie (a v : Byte) : (s.deviceWrite a v).ie = s.ie := rfl
@[simp] theorem State.deviceWrite_run (a v : Byte) : (s.deviceWrite a v).run = s.run := rfl
@[simp] theorem State.deviceWrite_fkind (a v : Byte) : (s.deviceWrite a v).fkind = s.fkind := rfl
@[simp] theorem State.deviceWrite_faddr (a v : Byte) : (s.deviceWrite a v).faddr = s.faddr := rfl
@[simp] theorem State.deviceWrite_fbyte (a v : Byte) : (s.deviceWrite a v).fbyte = s.fbyte := rfl
@[simp] theorem State.deviceWrite_fsrc (a v : Byte) : (s.deviceWrite a v).fsrc = s.fsrc := rfl
@[simp] theorem State.deviceWrite_plim (a v : Byte) : (s.deviceWrite a v).plim = s.plim := rfl
@[simp] theorem State.deviceWrite_tcnt (a v : Byte) : (s.deviceWrite a v).tcnt = s.tcnt := rfl
@[simp] theorem State.deviceWrite_tev (a v : Byte) : (s.deviceWrite a v).tev = s.tev := rfl
@[simp] theorem State.deviceWrite_kev (a v : Byte) : (s.deviceWrite a v).kev = s.kev := rfl
@[simp] theorem State.deviceWrite_kbyte (a v : Byte) : (s.deviceWrite a v).kbyte = s.kbyte := rfl
@[simp] theorem State.deviceWrite_mem (a v : Byte) : (s.deviceWrite a v).mem = Memory.write s.mem a.toNat v := rfl
@[simp] theorem State.deviceWrite_inputs (a v : Byte) : (s.deviceWrite a v).inputs = s.inputs := rfl
@[simp] theorem State.deviceWrite_draws (a v : Byte) : (s.deviceWrite a v).draws = s.draws := rfl
@[simp] theorem State.deviceWrite_out (a v : Byte) : (s.deviceWrite a v).out = s.out := rfl
@[simp] theorem State.deviceWrite_reg (a v : Byte) (q : Reg) : (s.deviceWrite a v).reg q = s.reg q := rfl
@[simp] theorem State.deviceWrite_sp (a v : Byte) : (s.deviceWrite a v).sp = s.sp := rfl
@[simp] theorem State.deviceWrite_readFl (a v : Byte) : (s.deviceWrite a v).readFl = s.readFl := rfl

/-! ### State.write -/

@[simp] theorem State.write_regs (a v : Byte) : (s.write a v).regs = s.regs := rfl
@[simp] theorem State.write_pc (a v : Byte) : (s.write a v).pc = s.pc := rfl
@[simp] theorem State.write_fl (a v : Byte) : (s.write a v).fl = s.fl := rfl
@[simp] theorem State.write_is (a v : Byte) : (s.write a v).is = s.is := rfl
@[simp] theorem State.write_ie (a v : Byte) : (s.write a v).ie = s.ie := rfl
@[simp] theorem State.write_run (a v : Byte) : (s.write a v).run = s.run := rfl
@[simp] theorem State.write_fkind (a v : Byte) : (s.write a v).fkind = s.fkind := rfl
@[simp] theorem State.write_faddr (a v : Byte) : (s.write a v).faddr = s.faddr := rfl
@[simp] theorem State.write_fbyte (a v : Byte) : (s.write a v).fbyte = s.fbyte := rfl
@[simp] theorem State.write_fsrc (a v : Byte) : (s.write a v).fsrc = s.fsrc := rfl
@[simp] theorem State.write_plim (a v : Byte) : (s.write a v).plim = s.plim := rfl
@[simp] theorem State.write_tcnt (a v : Byte) : (s.write a v).tcnt = s.tcnt := rfl
@[simp] theorem State.write_tev (a v : Byte) : (s.write a v).tev = s.tev := rfl
@[simp] theorem State.write_kev (a v : Byte) : (s.write a v).kev = s.kev := rfl
@[simp] theorem State.write_kbyte (a v : Byte) : (s.write a v).kbyte = s.kbyte := rfl
@[simp] theorem State.write_mem (a v : Byte) : (s.write a v).mem = if a = keyboardAddr then s.mem else Memory.write s.mem a.toNat v := rfl
@[simp] theorem State.write_inputs (a v : Byte) : (s.write a v).inputs = s.inputs := rfl
@[simp] theorem State.write_draws (a v : Byte) : (s.write a v).draws = s.draws := rfl
@[simp] theorem State.write_out (a v : Byte) : (s.write a v).out = s.out := rfl
@[simp] theorem State.write_reg (a v : Byte) (q : Reg) : (s.write a v).reg q = s.reg q := rfl
@[simp] theorem State.write_sp (a v : Byte) : (s.write a v).sp = s.sp := rfl
@[simp] theorem State.write_readFl (a v : Byte) : (s.write a v).readFl = s.readFl := rfl

/-! ### State.setPending -/

@[simp] theorem State.setPending_regs (n : Nat) : (s.setPending n).regs = s.regs := rfl
@[simp] theorem State.setPending_pc (n : Nat) : (s.setPending n).pc = s.pc := rfl
@[simp] theorem State.setPending_fl (n : Nat) : (s.setPending n).fl = s.fl := rfl
@[simp] theorem State.setPending_is (n : Nat) : (s.setPending n).is = s.is ||| ((1 : Byte) <<< n) := rfl
@[simp] theorem State.setPending_ie (n : Nat) : (s.setPending n).ie = s.ie := rfl
@[simp] theorem State.setPending_run (n : Nat) : (s.setPending n).run = s.run := rfl
@[simp] theorem State.setPending_fkind (n : Nat) : (s.setPending n).fkind = s.fkind := rfl
@[simp] theorem State.setPending_faddr (n : Nat) : (s.setPending n).faddr = s.faddr := rfl
@[simp] theorem State.setPending_fbyte (n : Nat) : (s.setPending n).fbyte = s.fbyte := rfl
@[simp] theorem State.setPending_fsrc (n : Nat) : (s.setPending n).fsrc = s.fsrc := rfl
@[simp] theorem State.setPending_plim (n : Nat) : (s.setPending n).plim = s.plim := rfl
@[simp] theorem State.setPending_tcnt (n : Nat) : (s.setPending n).tcnt = s.tcnt := rfl
@[simp] theorem State.setPending_tev (n : Nat) : (s.setPending n).tev = s.tev := rfl
@[simp] theorem State.setPending_kev (n : Nat) : (s.setPending n).kev = s.kev := rfl
@[simp] theorem State.setPending_kbyte (n : Nat) : (s.setPending n).kbyte = s.kbyte := rfl
@[simp] theorem State.setPending_mem (n : Nat) : (s.setPending n).mem = s.mem := rfl
@[simp] theorem State.setPending_inputs (n : Nat) : (s.setPending n).inputs = s.inputs := rfl
@[simp] theorem State.setPending_draws (n : Nat) : (s.setPending n).draws = s.draws := rfl
@[simp] theorem State.setPending_out (n : Nat) : (s.setPending n).out = s.out := rfl
@[simp] theorem State.setPending_reg (n : Nat) (q : Reg) : (s.setPending n).reg q = s.reg q := rfl
@[simp] theorem State.setPending_sp (n : Nat) : (s.setPending n).sp = s.sp := rfl
@[simp] theorem State.setPending_read (n : Nat) (c : Byte) : (s.setPending n).read c = s.read c := rfl
@[simp] theorem State.setPending_readFl (n : Nat) : (s.setPending n).readFl = s.readFl := rfl

/-! ### State.clearPending -/

@[simp] theorem State.clearPending_regs (n : Nat) : (s.clearPending n).regs = s.regs := rfl
@[simp] theorem State.clearPending_pc (n : Nat) : (s.clearPending n).pc = s.pc := rfl
@[simp] theorem State.clearPending_fl (n : Nat) : (s.clearPending n).fl = s.fl := rfl
@[simp] theorem State.clearPending_is (n : Nat) : (s.clearPending n).is = s.is &&& ~~~((1 : Byte) <<< n) := rfl
@[simp] theorem State.clearPending_ie (n : Nat) : (s.clearPending n).ie = s.ie := rfl
@[simp] theorem State.clearPending_run (n : Nat) : (s.clearPending n).run = s.run := rfl
@[simp] theorem State.clearPending_fkind (n : Nat) : (s.clearPending n).fkind = s.fkind := rfl
@[simp] theorem State.clearPending_faddr (n : Nat) : (s.clearPending n).faddr = s.faddr := rfl
@[simp] theorem State.clearPending_fbyte (n : Nat) : (s.clearPending n).fbyte = s.fbyte := rfl
@[simp] theorem State.clearPending_fsrc (n : Nat) : (s.clearPending n).fsrc = s.fsrc := rfl
@[simp] theorem State.clearPending_plim (n : Nat) : (s.clearPending n).plim = s.plim := rfl
@[simp] theorem State.clearPending_tcnt (n : Nat) : (s.clearPending n).tcnt = s.tcnt := rfl
@[simp] theorem State.clearPending_tev (n : Nat) : (s.clearPending n).tev = s.tev := rfl
@[simp] theorem State.clearPending_kev (n : Nat) : (s.clearPending n).kev = s.kev := rfl
@[simp] theorem State.clearPending_kbyte (n : Nat) : (s.clearPending n).kbyte = s.kbyte := rfl
@[simp] theorem State.clearPending_mem (n : Nat) : (s.clearPending n).mem = s.mem := rfl
@[simp] theorem State.clearPending_inputs (n : Nat) : (s.clearPending n).inputs = s.inputs := rfl
@[simp] theorem State.clearPending_draws (n : Nat) : (s.clearPending n).draws = s.draws := rfl
@[simp] theorem State.clearPending_out (n : Nat) : (s.clearPending n).out = s.out := rfl
@[simp] theorem State.clearPending_reg (n : Nat) (q : Reg) : (s.clearPending n).reg q = s.reg q := rfl
@[simp] theorem State.clearPending_sp (n : Nat) : (s.clearPending n).sp = s.sp := rfl
@[simp] theorem State.clearPending_read (n : Nat) (c : Byte) : (s.clearPending n).read c = s.read c := rfl
@[simp] theorem State.clearPending_readFl (n : Nat) : (s.clearPending n).readFl = s.readFl := rfl

/-! ### State.setIe -/

@[simp] theorem State.setIe_regs (b : Bool) : (s.setIe b).regs = s.regs := rfl
@[simp] theorem State.setIe_pc (b : Bool) : (s.setIe b).pc = s.pc := rfl
@[simp] theorem State.setIe_fl (b : Bool) : (s.setIe b).fl = s.fl := rfl
@[simp] theorem State.setIe_is (b : Bool) : (s.setIe b).is = s.is := rfl
@[simp] theorem State.setIe_ie (b : Bool) : (s.setIe b).ie = b := rfl
@[simp] theorem State.setIe_run (b : Bool) : (s.setIe b).run = s.run := rfl
@[simp] theorem State.setIe_fkind (b : Bool) : (s.setIe b).fkind = s.fkind := rfl
@[simp] theorem State.setIe_faddr (b : Bool) : (s.setIe b).faddr = s.faddr := rfl
@[simp] theorem State.setIe_fbyte (b : Bool) : (s.setIe b).fbyte = s.fbyte := rfl
@[simp] theorem State.setIe_fsrc (b : Bool) : (s.setIe b).fsrc = s.fsrc := rfl
@[simp] theorem State.setIe_plim (b : Bool) : (s.setIe b).plim = s.plim := rfl
@[simp] theorem State.setIe_tcnt (b : Bool) : (s.setIe b).tcnt = s.tcnt := rfl
@[simp] theorem State.setIe_tev (b : Bool) : (s.setIe b).tev = s.tev := rfl
@[simp] theorem State.setIe_kev (b : Bool) : (s.setIe b).kev = s.kev := rfl
@[simp] theorem State.setIe_kbyte (b : Bool) : (s.setIe b).kbyte = s.kbyte := rfl
@[simp] theorem State.setIe_mem (b : Bool) : (s.setIe b).mem = s.mem := rfl
@[simp] theorem State.setIe_inputs (b : Bool) : (s.setIe b).inputs = s.inputs := rfl
@[simp] theorem State.setIe_draws (b : Bool) : (s.setIe b).draws = s.draws := rfl
@[simp] theorem State.setIe_out (b : Bool) : (s.setIe b).out = s.out := rfl
@[simp] theorem State.setIe_reg (b : Bool) (q : Reg) : (s.setIe b).reg q = s.reg q := rfl
@[simp] theorem State.setIe_sp (b : Bool) : (s.setIe b).sp = s.sp := rfl
@[simp] theorem State.setIe_read (b : Bool) (c : Byte) : (s.setIe b).read c = s.read c := rfl
@[simp] theorem State.setIe_readFl (b : Bool) : (s.setIe b).readFl = s.readFl := rfl

/-! ### State.emit -/

@[simp] theorem State.emit_regs (item : OutputItem) : (s.emit item).regs = s.regs := rfl
@[simp] theorem State.emit_pc (item : OutputItem) : (s.emit item).pc = s.pc := rfl
@[simp] theorem State.emit_fl (item : OutputItem) : (s.emit item).fl = s.fl := rfl
@[simp] theorem State.emit_is (item : OutputItem) : (s.emit item).is = s.is := rfl
@[simp] theorem State.emit_ie (item : OutputItem) : (s.emit item).ie = s.ie := rfl
@[simp] theorem State.emit_run (item : OutputItem) : (s.emit item).run = s.run := rfl
@[simp] theorem State.emit_fkind (item : OutputItem) : (s.emit item).fkind = s.fkind := rfl
@[simp] theorem State.emit_faddr (item : OutputItem) : (s.emit item).faddr = s.faddr := rfl
@[simp] theorem State.emit_fbyte (item : OutputItem) : (s.emit item).fbyte = s.fbyte := rfl
@[simp] theorem State.emit_fsrc (item : OutputItem) : (s.emit item).fsrc = s.fsrc := rfl
@[simp] theorem State.emit_plim (item : OutputItem) : (s.emit item).plim = s.plim := rfl
@[simp] theorem State.emit_tcnt (item : OutputItem) : (s.emit item).tcnt = s.tcnt := rfl
@[simp] theorem State.emit_tev (item : OutputItem) : (s.emit item).tev = s.tev := rfl
@[simp] theorem State.emit_kev (item : OutputItem) : (s.emit item).kev = s.kev := rfl
@[simp] theorem State.emit_kbyte (item : OutputItem) : (s.emit item).kbyte = s.kbyte := rfl
@[simp] theorem State.emit_mem (item : OutputItem) : (s.emit item).mem = s.mem := rfl
@[simp] theorem State.emit_inputs (item : OutputItem) : (s.emit item).inputs = s.inputs := rfl
@[simp] theorem State.emit_draws (item : OutputItem) : (s.emit item).draws = s.draws := rfl
@[simp] theorem State.emit_out (item : OutputItem) : (s.emit item).out = s.out ++ [item] := rfl
@[simp] theorem State.emit_reg (item : OutputItem) (q : Reg) : (s.emit item).reg q = s.reg q := rfl
@[simp] theorem State.emit_sp (item : OutputItem) : (s.emit item).sp = s.sp := rfl
@[simp] theorem State.emit_read (item : OutputItem) (c : Byte) : (s.emit item).read c = s.read c := rfl
@[simp] theorem State.emit_readFl (item : OutputItem) : (s.emit item).readFl = s.readFl := rfl

/-! ### State.halt -/

@[simp] theorem State.halt_regs : (s.halt).regs = s.regs := rfl
@[simp] theorem State.halt_pc : (s.halt).pc = s.pc := rfl
@[simp] theorem State.halt_fl : (s.halt).fl = s.fl := rfl
@[simp] theorem State.halt_is : (s.halt).is = s.is := rfl
@[simp] theorem State.halt_ie : (s.halt).ie = s.ie := rfl
@[simp] theorem State.halt_run : (s.halt).run = .halted := rfl
@[simp] theorem State.halt_fkind : (s.halt).fkind = s.fkind := rfl
@[simp] theorem State.halt_faddr : (s.halt).faddr = s.faddr := rfl
@[simp] theorem State.halt_fbyte : (s.halt).fbyte = s.fbyte := rfl
@[simp] theorem State.halt_fsrc : (s.halt).fsrc = s.fsrc := rfl
@[simp] theorem State.halt_plim : (s.halt).plim = s.plim := rfl
@[simp] theorem State.halt_tcnt : (s.halt).tcnt = s.tcnt := rfl
@[simp] theorem State.halt_tev : (s.halt).tev = s.tev := rfl
@[simp] theorem State.halt_kev : (s.halt).kev = s.kev := rfl
@[simp] theorem State.halt_kbyte : (s.halt).kbyte = s.kbyte := rfl
@[simp] theorem State.halt_mem : (s.halt).mem = s.mem := rfl
@[simp] theorem State.halt_inputs : (s.halt).inputs = s.inputs := rfl
@[simp] theorem State.halt_draws : (s.halt).draws = s.draws := rfl
@[simp] theorem State.halt_out : (s.halt).out = s.out := rfl
@[simp] theorem State.halt_reg (q : Reg) : (s.halt).reg q = s.reg q := rfl
@[simp] theorem State.halt_sp : (s.halt).sp = s.sp := rfl
@[simp] theorem State.halt_read (c : Byte) : (s.halt).read c = s.read c := rfl
@[simp] theorem State.halt_readFl : (s.halt).readFl = s.readFl := rfl

/-! ### State.raise -/

@[simp] theorem State.raise_regs (kind : FaultKind) (addr byte : Byte) (src : FaultSource) : (s.raise kind addr byte src).regs = s.regs := rfl
@[simp] theorem State.raise_pc (kind : FaultKind) (addr byte : Byte) (src : FaultSource) : (s.raise kind addr byte src).pc = s.pc := rfl
@[simp] theorem State.raise_fl (kind : FaultKind) (addr byte : Byte) (src : FaultSource) : (s.raise kind addr byte src).fl = s.fl := rfl
@[simp] theorem State.raise_is (kind : FaultKind) (addr byte : Byte) (src : FaultSource) : (s.raise kind addr byte src).is = s.is := rfl
@[simp] theorem State.raise_ie (kind : FaultKind) (addr byte : Byte) (src : FaultSource) : (s.raise kind addr byte src).ie = s.ie := rfl
@[simp] theorem State.raise_run (kind : FaultKind) (addr byte : Byte) (src : FaultSource) : (s.raise kind addr byte src).run = .faulted := rfl
@[simp] theorem State.raise_fkind (kind : FaultKind) (addr byte : Byte) (src : FaultSource) : (s.raise kind addr byte src).fkind = kind := rfl
@[simp] theorem State.raise_faddr (kind : FaultKind) (addr byte : Byte) (src : FaultSource) : (s.raise kind addr byte src).faddr = addr := rfl
@[simp] theorem State.raise_fbyte (kind : FaultKind) (addr byte : Byte) (src : FaultSource) : (s.raise kind addr byte src).fbyte = byte := rfl
@[simp] theorem State.raise_fsrc (kind : FaultKind) (addr byte : Byte) (src : FaultSource) : (s.raise kind addr byte src).fsrc = src := rfl
@[simp] theorem State.raise_plim (kind : FaultKind) (addr byte : Byte) (src : FaultSource) : (s.raise kind addr byte src).plim = s.plim := rfl
@[simp] theorem State.raise_tcnt (kind : FaultKind) (addr byte : Byte) (src : FaultSource) : (s.raise kind addr byte src).tcnt = s.tcnt := rfl
@[simp] theorem State.raise_tev (kind : FaultKind) (addr byte : Byte) (src : FaultSource) : (s.raise kind addr byte src).tev = s.tev := rfl
@[simp] theorem State.raise_kev (kind : FaultKind) (addr byte : Byte) (src : FaultSource) : (s.raise kind addr byte src).kev = s.kev := rfl
@[simp] theorem State.raise_kbyte (kind : FaultKind) (addr byte : Byte) (src : FaultSource) : (s.raise kind addr byte src).kbyte = s.kbyte := rfl
@[simp] theorem State.raise_mem (kind : FaultKind) (addr byte : Byte) (src : FaultSource) : (s.raise kind addr byte src).mem = s.mem := rfl
@[simp] theorem State.raise_inputs (kind : FaultKind) (addr byte : Byte) (src : FaultSource) : (s.raise kind addr byte src).inputs = s.inputs := rfl
@[simp] theorem State.raise_draws (kind : FaultKind) (addr byte : Byte) (src : FaultSource) : (s.raise kind addr byte src).draws = s.draws := rfl
@[simp] theorem State.raise_out (kind : FaultKind) (addr byte : Byte) (src : FaultSource) : (s.raise kind addr byte src).out = s.out := rfl
@[simp] theorem State.raise_reg (kind : FaultKind) (addr byte : Byte) (src : FaultSource) (q : Reg) : (s.raise kind addr byte src).reg q = s.reg q := rfl
@[simp] theorem State.raise_sp (kind : FaultKind) (addr byte : Byte) (src : FaultSource) : (s.raise kind addr byte src).sp = s.sp := rfl
@[simp] theorem State.raise_read (kind : FaultKind) (addr byte : Byte) (src : FaultSource) (c : Byte) : (s.raise kind addr byte src).read c = s.read c := rfl
@[simp] theorem State.raise_readFl (kind : FaultKind) (addr byte : Byte) (src : FaultSource) : (s.raise kind addr byte src).readFl = s.readFl := rfl

/-! ### State.pushByte -/

@[simp] theorem State.pushByte_regs (v : Byte) : (s.pushByte v).regs = s.regs.set .r7 (s.sp - 1) := rfl
@[simp] theorem State.pushByte_pc (v : Byte) : (s.pushByte v).pc = s.pc := rfl
@[simp] theorem State.pushByte_fl (v : Byte) : (s.pushByte v).fl = s.fl := rfl
@[simp] theorem State.pushByte_is (v : Byte) : (s.pushByte v).is = s.is := rfl
@[simp] theorem State.pushByte_ie (v : Byte) : (s.pushByte v).ie = s.ie := rfl
@[simp] theorem State.pushByte_run (v : Byte) : (s.pushByte v).run = s.run := rfl
@[simp] theorem State.pushByte_fkind (v : Byte) : (s.pushByte v).fkind = s.fkind := rfl
@[simp] theorem State.pushByte_faddr (v : Byte) : (s.pushByte v).faddr = s.faddr := rfl
@[simp] theorem State.pushByte_fbyte (v : Byte) : (s.pushByte v).fbyte = s.fbyte := rfl
@[simp] theorem State.pushByte_fsrc (v : Byte) : (s.pushByte v).fsrc = s.fsrc := rfl
@[simp] theorem State.pushByte_plim (v : Byte) : (s.pushByte v).plim = s.plim := rfl
@[simp] theorem State.pushByte_tcnt (v : Byte) : (s.pushByte v).tcnt = s.tcnt := rfl
@[simp] theorem State.pushByte_tev (v : Byte) : (s.pushByte v).tev = s.tev := rfl
@[simp] theorem State.pushByte_kev (v : Byte) : (s.pushByte v).kev = s.kev := rfl
@[simp] theorem State.pushByte_kbyte (v : Byte) : (s.pushByte v).kbyte = s.kbyte := rfl
@[simp] theorem State.pushByte_mem (v : Byte) : (s.pushByte v).mem = if s.sp - 1 = keyboardAddr then s.mem else Memory.write s.mem (s.sp - 1).toNat v := rfl
@[simp] theorem State.pushByte_inputs (v : Byte) : (s.pushByte v).inputs = s.inputs := rfl
@[simp] theorem State.pushByte_draws (v : Byte) : (s.pushByte v).draws = s.draws := rfl
@[simp] theorem State.pushByte_out (v : Byte) : (s.pushByte v).out = s.out := rfl
@[simp] theorem State.pushByte_readFl (v : Byte) : (s.pushByte v).readFl = s.readFl := rfl

end Sys2Proof.Machine
end

