-- ==== Sys2Proof/Laws/Memory.lean ====
section
/-! SUPPORT. The laws of memory: every write keeps the canonical form; what a read gives after a
write; equal reads mean equal memories. -/

namespace Sys2Proof.Machine

@[simp] theorem Memory.wfFrom_nil (lo : Nat) : Memory.wfFrom lo [] = true := rfl

theorem Memory.wfFrom_cons {lo k : Nat} {v : Byte} {rest : Memory} :
    Memory.wfFrom lo ((k, v) :: rest) = true ↔
      lo ≤ k ∧ k < 256 ∧ v ≠ 0 ∧ Memory.wfFrom (k + 1) rest = true := by
  simp [Memory.wfFrom, and_assoc]

theorem Memory.wfFrom_mono {lo lo' : Nat} {m : Memory} (h : lo' ≤ lo)
    (hm : Memory.wfFrom lo m = true) : Memory.wfFrom lo' m = true := by
  cases m with
  | nil => rfl
  | cons c rest =>
    rw [Memory.wfFrom_cons] at hm ⊢
    exact ⟨Nat.le_trans h hm.1, hm.2⟩

/-- Below the first address a canonical list holds nothing. -/
theorem Memory.read_below {lo a : Nat} {m : Memory} (hm : Memory.wfFrom lo m = true) (h : a < lo) :
    Memory.read m a = 0 := by
  induction m generalizing lo with
  | nil => rfl
  | cons c rest ih =>
    obtain ⟨k, v⟩ := c
    rw [Memory.wfFrom_cons] at hm
    rw [Memory.read, if_neg (by omega)]
    exact ih hm.2.2.2 (by omega)

theorem Memory.wfFrom_write {lo a : Nat} {m : Memory} (v : Byte)
    (hm : Memory.wfFrom lo m = true) (hlo : lo ≤ a) (ha : a < 256) :
    Memory.wfFrom lo (Memory.write m a v) = true := by
  induction m generalizing lo with
  | nil =>
    by_cases hv : v = 0
    · simp [Memory.write, hv]
    · rw [Memory.write, if_neg hv, Memory.wfFrom_cons]
      exact ⟨hlo, ha, hv, rfl⟩
  | cons c rest ih =>
    obtain ⟨k, w⟩ := c
    rw [Memory.wfFrom_cons] at hm
    obtain ⟨h1, h2, h3, h4⟩ := hm
    rw [Memory.write]
    by_cases hak : a < k
    · rw [if_pos hak]
      by_cases hv : v = 0
      · rw [if_pos hv, Memory.wfFrom_cons]
        exact ⟨h1, h2, h3, h4⟩
      · rw [if_neg hv, Memory.wfFrom_cons, Memory.wfFrom_cons]
        exact ⟨hlo, ha, hv, by omega, h2, h3, h4⟩
    · rw [if_neg hak]
      by_cases he : a = k
      · rw [if_pos he]
        by_cases hv : v = 0
        · rw [if_pos hv]
          exact Memory.wfFrom_mono (by omega) h4
        · rw [if_neg hv, Memory.wfFrom_cons]
          exact ⟨hlo, ha, hv, he ▸ h4⟩
      · rw [if_neg he, Memory.wfFrom_cons]
        exact ⟨h1, h2, h3, ih h4 (by omega)⟩

/-- A write keeps the canonical form. -/
theorem Memory.wf_write {m : Memory} (hm : Memory.wf m = true) (a v : Byte) :
    Memory.wf (Memory.write m a.toNat v) = true :=
  Memory.wfFrom_write v hm (Nat.zero_le _) a.isLt

/-- A write leaves every other address alone, canonical form or not. -/
theorem Memory.read_write_other {m : Memory} {a b : Nat} (v : Byte) (h : b ≠ a) :
    Memory.read (Memory.write m a v) b = Memory.read m b := by
  induction m with
  | nil =>
    rw [Memory.write]
    split <;> simp [Memory.read, h.symm]
  | cons c rest ih =>
    obtain ⟨k, w⟩ := c
    rw [Memory.write]
    split
    · split <;> simp [Memory.read, h.symm]
    · split
      · rename_i h2
        subst h2
        split <;> simp [Memory.read, h.symm]
      · simp only [Memory.read, ih]

theorem Memory.read_write_same_from {m : Memory} {lo a : Nat} (v : Byte)
    (hm : Memory.wfFrom lo m = true) : Memory.read (Memory.write m a v) a = v := by
  induction m generalizing lo with
  | nil =>
    rw [Memory.write]
    split
    · rename_i hv
      exact hv.symm
    · simp [Memory.read]
  | cons c rest ih =>
    obtain ⟨k, w⟩ := c
    rw [Memory.wfFrom_cons] at hm
    obtain ⟨h1, h2, h3, h4⟩ := hm
    rw [Memory.write]
    split
    · rename_i hak
      split
      · rename_i hv
        subst hv
        exact Memory.read_below (m := (k, w) :: rest) (lo := a + 1)
          (Memory.wfFrom_cons.2 ⟨by omega, h2, h3, h4⟩) (by omega)
      · simp [Memory.read]
    · split
      · rename_i hak
        subst hak
        split
        · rename_i hv
          subst hv
          exact Memory.read_below h4 (by omega)
        · simp [Memory.read]
      · rename_i hne
        rw [Memory.read, if_neg (fun e => hne e.symm)]
        exact ih h4

/-- A read after a write to the same address gives the value written. -/
theorem Memory.read_write_same {m : Memory} (hm : Memory.wf m = true) (a : Nat) (v : Byte) :
    Memory.read (Memory.write m a v) a = v :=
  Memory.read_write_same_from v hm

/-- Copying bytes that end at or below 256 keeps the canonical form. -/
theorem Memory.wf_copyAt {m : Memory} {a : Nat} {bs : List Byte} (hm : Memory.wf m = true)
    (h : a + bs.length ≤ 256) : Memory.wf (Memory.copyAt m a bs) = true := by
  induction bs generalizing m a with
  | nil => exact hm
  | cons b bs ih =>
    rw [List.length_cons] at h
    exact ih (Memory.wfFrom_write b hm (Nat.zero_le _) (by omega)) (by omega)

/-- What a read gives after a copy: the byte copied there, and elsewhere what was there before. -/
theorem Memory.read_copyAt {m : Memory} {a : Nat} {bs : List Byte} (hm : Memory.wf m = true)
    (h : a + bs.length ≤ 256) (c : Nat) :
    Memory.read (Memory.copyAt m a bs) c =
      if a ≤ c ∧ c < a + bs.length then bs.getD (c - a) 0 else Memory.read m c := by
  induction bs generalizing m a with
  | nil =>
    rw [Memory.copyAt, if_neg (by simp only [List.length_nil]; omega)]
  | cons b bs ih =>
    rw [List.length_cons] at h ⊢
    rw [Memory.copyAt, ih (Memory.wfFrom_write b hm (Nat.zero_le _) (by omega)) (by omega)]
    by_cases hca : c = a
    · subst hca
      rw [if_neg (by omega), if_pos (by omega), Memory.read_write_same hm]
      simp
    · rw [Memory.read_write_other b hca]
      by_cases hin : a + 1 ≤ c ∧ c < a + 1 + bs.length
      · rw [if_pos hin, if_pos (by omega)]
        obtain ⟨d, rfl⟩ : ∃ d, c = a + 1 + d := ⟨c - (a + 1), by omega⟩
        rw [show a + 1 + d - (a + 1) = d by omega, show a + 1 + d - a = d + 1 by omega]
        simp
      · rw [if_neg hin, if_neg (by omega)]

end Sys2Proof.Machine
end

