-- ==== Sys2Proof/Laws/Ops.lean ====
section
/-! SUPPORT. What each shared operation of Ops.lean and Operands.lean can do, said once. -/

namespace Sys2Proof.Machine

/-! ### Registers -/

theorem Regs.get_set (x : Regs) (r q : Reg) (v : Byte) :
    (x.set r v).get q = if q = r then v else x.get q := by
  cases r <;> cases q <;> rfl

theorem State.reg_setReg (s : State) (r q : Reg) (v : Byte) :
    (s.setReg r v).reg q = if q = r then v else s.reg q :=
  Regs.get_set s.regs r q v

@[simp] theorem State.reg_setReg_self (s : State) (r : Reg) (v : Byte) :
    (s.setReg r v).reg r = v := by simp [State.reg_setReg]

theorem State.reg_setReg_of_ne (s : State) {r q : Reg} (v : Byte) (h : q ≠ r) :
    (s.setReg r v).reg q = s.reg q := by simp [State.reg_setReg, h]

@[simp] theorem State.sp_setSp (s : State) (v : Byte) : (s.setSp v).sp = v :=
  State.reg_setReg_self s .r7 v

theorem State.reg_setSp (s : State) (q : Reg) (v : Byte) :
    (s.setSp v).reg q = if q = .r7 then v else s.reg q :=
  State.reg_setReg s .r7 q v

/-- Two register files with the same eight values are the same. -/
theorem Regs.ext_get {x y : Regs} (h : ∀ r, x.get r = y.get r) : x = y := by
  cases x
  cases y
  simp only [Regs.mk.injEq]
  exact ⟨h .r0, h .r1, h .r2, h .r3, h .r4, h .r5, h .r6, h .r7⟩

/-! ### Memory accesses -/

theorem State.write_memOk {s : State} (h : s.memOk) (a v : Byte) : (s.write a v).memOk := by
  show Memory.wf (if a = keyboardAddr then s.mem else Memory.write s.mem a.toNat v) = true
  split
  · exact h
  · exact Memory.wf_write h a v

theorem State.deviceWrite_memOk {s : State} (h : s.memOk) (a v : Byte) : (s.deviceWrite a v).memOk :=
  Memory.wf_write h a v

theorem State.read_deviceWrite {s : State} (h : s.memOk) (a v b : Byte) :
    (s.deviceWrite a v).read b = if b = a then v else s.read b := by
  by_cases hb : b = a
  · subst hb
    rw [if_pos rfl]
    exact Memory.read_write_same h _ v
  · rw [if_neg hb]
    exact Memory.read_write_other v fun e => hb (BitVec.eq_of_toNat_eq e)

/-- A store by an instruction: the byte stored there, unless it is the keyboard register; every
other address as before (20_memory.md R53, R56). -/
theorem State.read_write {s : State} (h : s.memOk) (a v b : Byte) :
    (s.write a v).read b = if b = a ∧ a ≠ keyboardAddr then v else s.read b := by
  by_cases ha : a = keyboardAddr
  · rw [if_neg (by simp [ha])]
    show Memory.read (if a = keyboardAddr then s.mem else _) _ = _
    rw [if_pos ha]
    rfl
  · have e : s.write a v = s.deviceWrite a v := by
      show { s with mem := if a = keyboardAddr then _ else _ } = _
      rw [if_neg ha]
      rfl
    rw [e, State.read_deviceWrite h]
    simp [ha]

/-- A store leaves every other address alone, canonical form or not. -/
theorem State.read_write_of_ne (s : State) {a b : Byte} (v : Byte) (h : b ≠ a) :
    (s.write a v).read b = s.read b := by
  show Memory.read (if a = keyboardAddr then s.mem else _) _ = _
  split
  · rfl
  · exact Memory.read_write_other v fun e => h (BitVec.eq_of_toNat_eq e)

/-- No store by an instruction changes the keyboard register (20_memory.md R56). -/
theorem State.read_write_keyboard (s : State) (a v : Byte) :
    (s.write a v).read keyboardAddr = s.read keyboardAddr := by
  by_cases h : keyboardAddr = a
  · show Memory.read (if a = keyboardAddr then s.mem else _) _ = _
    rw [if_pos h.symm]
    rfl
  · exact State.read_write_of_ne s v h

/-! ### The PC -/

theorem State.pcAfter_toNat (s : State) (n : Nat) : (s.pcAfter n).toNat = (s.pc.toNat + n) % 256 := by
  simp [State.pcAfter, BitVec.toNat_add]

/-! ### The stack checks -/

theorem stackCheckPush_eq_none {sp plim k : Nat} :
    stackCheckPush sp plim k = none ↔ plim + k ≤ sp ∧ sp ≤ 0xF3 := by
  unfold stackCheckPush stackBase
  split
  · simp
    omega
  · split
    · simp
      omega
    · simp
      omega

theorem stackCheckPop_eq_none {sp plim k : Nat} :
    stackCheckPop sp plim k = none ↔ plim ≤ sp ∧ sp + k ≤ 0xF3 := by
  unfold stackCheckPop stackBase
  split
  · simp
    omega
  · split
    · simp
      omega
    · simp
      omega

/-- A failed push check: below PLIM it is StackOverflow, else StackUnderflow. -/
theorem stackCheckPush_eq_some {sp plim k : Nat} {kind : FaultKind}
    (h : stackCheckPush sp plim k = some kind) :
    (sp < plim + k ∧ kind = .stackOverflow) ∨
    (plim + k ≤ sp ∧ 0xF3 < sp ∧ kind = .stackUnderflow) := by
  unfold stackCheckPush stackBase at h
  split at h
  · simp at h
    exact .inl ⟨‹_›, h.symm⟩
  · split at h
    · simp at h
      exact .inr ⟨by omega, ‹_›, h.symm⟩
    · cases h

/-- A failed pop check: above the base it is StackUnderflow, else StackOverflow. -/
theorem stackCheckPop_eq_some {sp plim k : Nat} {kind : FaultKind}
    (h : stackCheckPop sp plim k = some kind) :
    (0xF3 < sp + k ∧ kind = .stackUnderflow) ∨
    (sp + k ≤ 0xF3 ∧ sp < plim ∧ kind = .stackOverflow) := by
  unfold stackCheckPop stackBase at h
  split at h
  · simp at h
    exact .inl ⟨‹_›, h.symm⟩
  · split at h
    · simp at h
      exact .inr ⟨by omega, ‹_›, h.symm⟩
    · cases h

/-! ### Push and pop -/

/-- All a push can do: fault by its check, or push and go on. -/
theorem State.push_cases (s : State) (op v : Byte) (done : State → State) :
    (∃ kind, stackCheckPush s.sp.toNat s.plim 1 = some kind ∧
      s.push op v done = s.raise kind s.pc op .instruction) ∨
    (stackCheckPush s.sp.toNat s.plim 1 = none ∧ s.push op v done = done (s.pushByte v)) := by
  unfold State.push
  split
  next kind h => exact .inl ⟨kind, h, rfl⟩
  next h => exact .inr ⟨h, rfl⟩

/-- All a pop can do: fault by its check, or pop and go on. -/
theorem State.pop_cases (s : State) (op : Byte) (done : Byte → State → State) :
    (∃ kind, stackCheckPop s.sp.toNat s.plim 1 = some kind ∧
      s.pop op done = s.raise kind s.pc op .instruction) ∨
    (stackCheckPop s.sp.toNat s.plim 1 = none ∧
      s.pop op done = done (s.read s.sp) (s.setSp (s.sp + 1))) := by
  unfold State.pop
  split
  next kind h => exact .inl ⟨kind, h, rfl⟩
  next h => exact .inr ⟨h, rfl⟩

theorem State.pushByte_reg (s : State) (v : Byte) (q : Reg) :
    (s.pushByte v).reg q = if q = .r7 then s.sp - 1 else s.reg q :=
  State.reg_setSp s q (s.sp - 1)

@[simp] theorem State.pushByte_sp (s : State) (v : Byte) : (s.pushByte v).sp = s.sp - 1 :=
  State.sp_setSp s _

theorem State.pushByte_memOk {s : State} (h : s.memOk) (v : Byte) : (s.pushByte v).memOk :=
  State.write_memOk (s := s.setSp (s.sp - 1)) h _ _

theorem State.read_pushByte {s : State} (h : s.memOk) (v c : Byte) :
    (s.pushByte v).read c =
      if c = s.sp - 1 ∧ s.sp - 1 ≠ keyboardAddr then v else s.read c :=
  State.read_write (s := s.setSp (s.sp - 1)) h _ _ _

theorem State.read_pushByte_of_ne (s : State) (v : Byte) {c : Byte} (h : c ≠ s.sp - 1) :
    (s.pushByte v).read c = s.read c :=
  State.read_write_of_ne (s.setSp (s.sp - 1)) v h

@[simp] theorem State.pushAll_pc (s : State) (vs : List Byte) : (s.pushAll vs).pc = s.pc := by
  induction vs generalizing s with
  | nil => rfl
  | cons v vs ih => exact ih _

@[simp] theorem State.pushAll_fl (s : State) (vs : List Byte) : (s.pushAll vs).fl = s.fl := by
  induction vs generalizing s with
  | nil => rfl
  | cons v vs ih => exact ih _

@[simp] theorem State.pushAll_is (s : State) (vs : List Byte) : (s.pushAll vs).is = s.is := by
  induction vs generalizing s with
  | nil => rfl
  | cons v vs ih => exact ih _

@[simp] theorem State.pushAll_ie (s : State) (vs : List Byte) : (s.pushAll vs).ie = s.ie := by
  induction vs generalizing s with
  | nil => rfl
  | cons v vs ih => exact ih _

@[simp] theorem State.pushAll_run (s : State) (vs : List Byte) : (s.pushAll vs).run = s.run := by
  induction vs generalizing s with
  | nil => rfl
  | cons v vs ih => exact ih _

@[simp] theorem State.pushAll_fkind (s : State) (vs : List Byte) : (s.pushAll vs).fkind = s.fkind := by
  induction vs generalizing s with
  | nil => rfl
  | cons v vs ih => exact ih _

@[simp] theorem State.pushAll_faddr (s : State) (vs : List Byte) : (s.pushAll vs).faddr = s.faddr := by
  induction vs generalizing s with
  | nil => rfl
  | cons v vs ih => exact ih _

@[simp] theorem State.pushAll_fbyte (s : State) (vs : List Byte) : (s.pushAll vs).fbyte = s.fbyte := by
  induction vs generalizing s with
  | nil => rfl
  | cons v vs ih => exact ih _

@[simp] theorem State.pushAll_fsrc (s : State) (vs : List Byte) : (s.pushAll vs).fsrc = s.fsrc := by
  induction vs generalizing s with
  | nil => rfl
  | cons v vs ih => exact ih _

@[simp] theorem State.pushAll_plim (s : State) (vs : List Byte) : (s.pushAll vs).plim = s.plim := by
  induction vs generalizing s with
  | nil => rfl
  | cons v vs ih => exact ih _

@[simp] theorem State.pushAll_tcnt (s : State) (vs : List Byte) : (s.pushAll vs).tcnt = s.tcnt := by
  induction vs generalizing s with
  | nil => rfl
  | cons v vs ih => exact ih _

@[simp] theorem State.pushAll_tev (s : State) (vs : List Byte) : (s.pushAll vs).tev = s.tev := by
  induction vs generalizing s with
  | nil => rfl
  | cons v vs ih => exact ih _

@[simp] theorem State.pushAll_kev (s : State) (vs : List Byte) : (s.pushAll vs).kev = s.kev := by
  induction vs generalizing s with
  | nil => rfl
  | cons v vs ih => exact ih _

@[simp] theorem State.pushAll_kbyte (s : State) (vs : List Byte) : (s.pushAll vs).kbyte = s.kbyte := by
  induction vs generalizing s with
  | nil => rfl
  | cons v vs ih => exact ih _

@[simp] theorem State.pushAll_inputs (s : State) (vs : List Byte) : (s.pushAll vs).inputs = s.inputs := by
  induction vs generalizing s with
  | nil => rfl
  | cons v vs ih => exact ih _

@[simp] theorem State.pushAll_draws (s : State) (vs : List Byte) : (s.pushAll vs).draws = s.draws := by
  induction vs generalizing s with
  | nil => rfl
  | cons v vs ih => exact ih _

@[simp] theorem State.pushAll_out (s : State) (vs : List Byte) : (s.pushAll vs).out = s.out := by
  induction vs generalizing s with
  | nil => rfl
  | cons v vs ih => exact ih _

theorem State.pushAll_reg (s : State) (vs : List Byte) (q : Reg) :
    (s.pushAll vs).reg q = if q = .r7 then s.sp - BitVec.ofNat 8 vs.length else s.reg q := by
  induction vs generalizing s with
  | nil => by_cases h : q = .r7 <;> simp [State.pushAll, h, State.sp]
  | cons v vs ih =>
    rw [State.pushAll, ih, State.pushByte_reg, State.pushByte_sp]
    split
    · rw [List.length_cons]
      bv_omega
    · rfl

theorem State.pushAll_memOk {s : State} (h : s.memOk) (vs : List Byte) : (s.pushAll vs).memOk := by
  induction vs generalizing s with
  | nil => exact h
  | cons v vs ih => exact ih (State.pushByte_memOk h v)

/-- Pushes made within the stack region: the slots hold the values, the first value highest, and
every other byte is as before. -/
theorem State.read_pushAll {s : State} {vs : List Byte} (hm : s.memOk)
    (hroom : vs.length ≤ s.sp.toNat) (hbase : s.sp.toNat ≤ 0xF3) (c : Byte) :
    (s.pushAll vs).read c =
      if s.sp.toNat - vs.length ≤ c.toNat ∧ c.toNat < s.sp.toNat
      then vs.getD (s.sp.toNat - 1 - c.toNat) 0 else s.read c := by
  induction vs generalizing s with
  | nil =>
    rw [if_neg (by simp only [List.length_nil]; omega)]
    rfl
  | cons v vs ih =>
    rw [List.length_cons] at hroom
    have hsp : (s.pushByte v).sp.toNat = s.sp.toNat - 1 := by
      rw [State.pushByte_sp]
      bv_omega
    have hkey : (s.sp - 1 : Byte) ≠ keyboardAddr := by
      unfold keyboardAddr
      bv_omega
    rw [State.pushAll, ih (State.pushByte_memOk hm v) (by omega) (by omega), hsp, List.length_cons]
    by_cases hin : s.sp.toNat - 1 - vs.length ≤ c.toNat ∧ c.toNat < s.sp.toNat - 1
    · rw [if_pos hin, if_pos (by omega)]
      obtain ⟨d, hd⟩ : ∃ d, s.sp.toNat - 1 - c.toNat = d + 1 :=
        ⟨s.sp.toNat - 1 - c.toNat - 1, by omega⟩
      rw [hd, show s.sp.toNat - 1 - 1 - c.toNat = d by omega]
      simp
    · rw [if_neg hin, State.read_pushByte hm]
      by_cases hc : c.toNat = s.sp.toNat - 1
      · rw [if_pos ⟨by bv_omega, hkey⟩, if_pos (by omega), hc]
        simp
      · rw [if_neg (by rintro ⟨rfl, -⟩; exact hc (by bv_omega)), if_neg (by omega)]

/-! ### Interrupt entry and return -/

@[simp] theorem State.frame_length (s : State) : s.frame.length = 10 := rfl

/-- All interrupt entry can do (60_exceptions.md R253, R254). -/
theorem State.enter_cases (s : State) (n : Nat) :
    (∃ kind, stackCheckPush s.sp.toNat s.plim 10 = some kind ∧
      s.enter n = s.raise kind s.pc (BitVec.ofNat 8 n) .entry) ∨
    (stackCheckPush s.sp.toNat s.plim 10 = none ∧
      s.enter n = (((s.pushAll s.frame).clearPending n).setIe false).jump
        ((s.pushAll s.frame).read (vectorBase + BitVec.ofNat 8 n))) := by
  cases h : stackCheckPush s.sp.toNat s.plim 10 with
  | some kind => exact .inl ⟨kind, rfl, by simp only [State.enter, h]⟩
  | none => exact .inr ⟨rfl, by simp only [State.enter, h, State.setIe_read, State.clearPending_read]⟩

/-- All the return from an interrupt can do (44_system.md R223). -/
theorem State.interruptReturn_cases (s : State) (op : Byte) :
    (∃ kind, (stackCheckPop s.sp.toNat s.plim 1 = some kind ∨
        (stackCheckPop s.sp.toNat s.plim 1 = none ∧
          stackCheckPop (s.read s.sp).toNat s.plim 9 = some kind)) ∧
      s.interruptReturn op = s.raise kind s.pc op .instruction) ∨
    (stackCheckPop s.sp.toNat s.plim 1 = none ∧
      stackCheckPop (s.read s.sp).toNat s.plim 9 = none ∧
      s.interruptReturn op = s.popFrame) := by
  unfold State.interruptReturn
  split
  next kind h => exact .inl ⟨kind, .inl h, rfl⟩
  next h =>
    split
    next kind h' => exact .inl ⟨kind, .inr ⟨h, h'⟩, rfl⟩
    next h' => exact .inr ⟨h, h', rfl⟩

@[simp] theorem State.popFrame_pc (s : State) : s.popFrame.pc = s.read (s.read s.sp + 8) := rfl
@[simp] theorem State.popFrame_fl (s : State) :
    s.popFrame.fl = s.read (s.read s.sp + 7) &&& flMask := rfl
@[simp] theorem State.popFrame_is (s : State) : s.popFrame.is = s.is := rfl
@[simp] theorem State.popFrame_ie (s : State) : s.popFrame.ie = true := rfl
@[simp] theorem State.popFrame_run (s : State) : s.popFrame.run = s.run := rfl
@[simp] theorem State.popFrame_fkind (s : State) : s.popFrame.fkind = s.fkind := rfl
@[simp] theorem State.popFrame_faddr (s : State) : s.popFrame.faddr = s.faddr := rfl
@[simp] theorem State.popFrame_fbyte (s : State) : s.popFrame.fbyte = s.fbyte := rfl
@[simp] theorem State.popFrame_fsrc (s : State) : s.popFrame.fsrc = s.fsrc := rfl
@[simp] theorem State.popFrame_plim (s : State) : s.popFrame.plim = s.plim := rfl
@[simp] theorem State.popFrame_tcnt (s : State) : s.popFrame.tcnt = s.tcnt := rfl
@[simp] theorem State.popFrame_tev (s : State) : s.popFrame.tev = s.tev := rfl
@[simp] theorem State.popFrame_kev (s : State) : s.popFrame.kev = s.kev := rfl
@[simp] theorem State.popFrame_kbyte (s : State) : s.popFrame.kbyte = s.kbyte := rfl
@[simp] theorem State.popFrame_mem (s : State) : s.popFrame.mem = s.mem := rfl
@[simp] theorem State.popFrame_inputs (s : State) : s.popFrame.inputs = s.inputs := rfl
@[simp] theorem State.popFrame_draws (s : State) : s.popFrame.draws = s.draws := rfl
@[simp] theorem State.popFrame_out (s : State) : s.popFrame.out = s.out := rfl
@[simp] theorem State.popFrame_read (s : State) (c : Byte) : s.popFrame.read c = s.read c := rfl

theorem State.popFrame_reg (s : State) (q : Reg) :
    s.popFrame.reg q =
      match q with
      | .r0 => s.read (s.read s.sp + 6)
      | .r1 => s.read (s.read s.sp + 5)
      | .r2 => s.read (s.read s.sp + 4)
      | .r3 => s.read (s.read s.sp + 3)
      | .r4 => s.read (s.read s.sp + 2)
      | .r5 => s.read (s.read s.sp + 1)
      | .r6 => s.read (s.read s.sp)
      | .r7 => s.read s.sp + 9 := by
  cases q <;> rfl

/-! ### Operand forms and flags -/

theorem State.jumpIf_eq (s : State) (cond : Bool) (r : Reg) :
    s.jumpIf cond r = s.jump (if cond then s.reg r else s.pcAfter 2) := by
  cases cond <;> rfl

theorem State.divide_cases (s : State) (op : Byte) (f : Byte → Byte → Byte) (a b : Reg) :
    (s.reg b = 0 ∧ s.divide op f a b = s.raise .divisionByZero s.pc op .instruction) ∨
    (s.reg b ≠ 0 ∧ s.divide op f a b = s.binary f a b) := by
  unfold State.divide
  split
  next h => exact .inl ⟨h, rfl⟩
  next h => exact .inr ⟨h, rfl⟩

theorem flOk_of_masked {s : State} {v : Byte} (h : s.fl = v &&& flMask) : s.flOk := by
  show s.fl &&& 0xF8 = 0
  rw [h, BitVec.and_assoc]
  simp [flMask]

theorem writeFl_flOk (s : State) (v : Byte) : (s.writeFl v).flOk :=
  flOk_of_masked (State.writeFl_fl s v)

/-- In a state whose FL has its hardwired bits, reading it gives it whole. -/
theorem readFl_of_flOk {s : State} (h : s.flOk) : s.readFl = s.fl := by
  have key : ∀ x : Byte, x &&& 0xF8 = 0 → x &&& 0x07 = x := by decide
  exact key s.fl h

theorem sext8_eq_toInt (v : Byte) : sext8 v = v.toInt := by
  unfold sext8
  rw [BitVec.toInt_eq_toNat_cond]
  split <;> split <;> omega

theorem compareFlags_cases (A B : Byte) :
    (A.toNat = B.toNat ∧ compareFlags A B = 0x01) ∨
    (B.toNat < A.toNat ∧ compareFlags A B = 0x02) ∨
    (A.toNat < B.toNat ∧ compareFlags A B = 0x04) := by
  unfold compareFlags
  rcases Nat.lt_trichotomy A.toNat B.toNat with h | h | h
  · refine .inr (.inr ⟨h, ?_⟩)
    rw [decide_eq_true h, decide_eq_false (by omega : ¬ A.toNat > B.toNat),
      decide_eq_false (by omega : ¬ A.toNat = B.toNat)]
    rfl
  · refine .inl ⟨h, ?_⟩
    rw [decide_eq_false (by omega : ¬ A.toNat < B.toNat),
      decide_eq_false (by omega : ¬ A.toNat > B.toNat), decide_eq_true h]
    rfl
  · refine .inr (.inl ⟨h, ?_⟩)
    rw [decide_eq_false (by omega : ¬ A.toNat < B.toNat), decide_eq_true h,
      decide_eq_false (by omega : ¬ A.toNat = B.toNat)]
    rfl

end Sys2Proof.Machine
end

