-- ==== Sys2Proof/Laws/Devices.lean ====
section
/-! SUPPORT. What inputs, boundary events, the poll and the load can do, said once. -/

namespace Sys2Proof.Machine

/-! ### Inputs -/

/-- Inputs change nothing but the device latches and the counter. -/
theorem State.deviceInputs_spec (s : State) (es : List DeviceInput) :
    ∃ tcnt tev kev kbyte, s.deviceInputs es =
      { s with tcnt := tcnt, tev := tev, kev := kev, kbyte := kbyte } := by
  induction es generalizing s with
  | nil => exact ⟨s.tcnt, s.tev, s.kev, s.kbyte, rfl⟩
  | cons e es ih =>
    obtain ⟨tcnt, tev, kev, kbyte, h⟩ := ih (s.deviceInput e)
    refine ⟨tcnt, tev, kev, kbyte, ?_⟩
    rw [State.deviceInputs, h]
    unfold State.deviceInput State.tick State.keyPressed
    split
    · cases e with
      | tick =>
        dsimp only
        split <;> rfl
      | key k => rfl
    · rfl

/-- With no entry settled, the next step's inputs are a free draw. -/
theorem State.nextInputs_nil {s : State} (h : s.inputs = []) :
    s.nextInputs = Config.arrivals s.draws := by
  unfold State.nextInputs; rw [h]; rfl

theorem State.nextInputs_cons {s : State} {now : List DeviceInput} {later : List (List DeviceInput)}
    (h : s.inputs = now :: later) : s.nextInputs = now := by
  unfold State.nextInputs; rw [h]; rfl

/-- All the arrival of a step's inputs can do: the latches and the counter, and the next draw. -/
theorem State.arrive_spec (s : State) :
    ∃ tcnt tev kev kbyte, s.arrive =
      { s with
        tcnt := tcnt, tev := tev, kev := kev, kbyte := kbyte
        inputs := s.inputs.tail, draws := s.draws + 1 } :=
  ⟨_, _, _, _, rfl⟩

@[simp] theorem State.arrive_regs (s : State) : s.arrive.regs = s.regs := rfl
@[simp] theorem State.arrive_pc (s : State) : s.arrive.pc = s.pc := rfl
@[simp] theorem State.arrive_fl (s : State) : s.arrive.fl = s.fl := rfl
@[simp] theorem State.arrive_is (s : State) : s.arrive.is = s.is := rfl
@[simp] theorem State.arrive_ie (s : State) : s.arrive.ie = s.ie := rfl
@[simp] theorem State.arrive_run (s : State) : s.arrive.run = s.run := rfl
@[simp] theorem State.arrive_fkind (s : State) : s.arrive.fkind = s.fkind := rfl
@[simp] theorem State.arrive_faddr (s : State) : s.arrive.faddr = s.faddr := rfl
@[simp] theorem State.arrive_fbyte (s : State) : s.arrive.fbyte = s.fbyte := rfl
@[simp] theorem State.arrive_fsrc (s : State) : s.arrive.fsrc = s.fsrc := rfl
@[simp] theorem State.arrive_plim (s : State) : s.arrive.plim = s.plim := rfl
@[simp] theorem State.arrive_mem (s : State) : s.arrive.mem = s.mem := rfl
@[simp] theorem State.arrive_out (s : State) : s.arrive.out = s.out := rfl
@[simp] theorem State.arrive_inputs (s : State) : s.arrive.inputs = s.inputs.tail := rfl
@[simp] theorem State.arrive_draws (s : State) : s.arrive.draws = s.draws + 1 := rfl
theorem State.arrive_tcnt (s : State) : s.arrive.tcnt = (s.deviceInputs s.nextInputs).tcnt := rfl
theorem State.arrive_tev (s : State) : s.arrive.tev = (s.deviceInputs s.nextInputs).tev := rfl
theorem State.arrive_kev (s : State) : s.arrive.kev = (s.deviceInputs s.nextInputs).kev := rfl
theorem State.arrive_kbyte (s : State) : s.arrive.kbyte = (s.deviceInputs s.nextInputs).kbyte := rfl

@[simp] theorem State.arrive_reg (s : State) (r : Reg) : s.arrive.reg r = s.reg r := rfl
@[simp] theorem State.arrive_read (s : State) (a : Byte) : s.arrive.read a = s.read a := rfl

/-- A tick keeps the counter below the period (10_state.md R33). -/
theorem State.tick_timerOk {s : State} (h : s.timerOk) : s.tick.timerOk := by
  unfold State.tick
  split
  · show 0 < Config.timerPeriod
    exact Nat.succ_pos _
  · show s.tcnt + 1 < Config.timerPeriod
    omega

theorem State.deviceInputs_timerOk {s : State} (h : s.timerOk) (es : List DeviceInput) :
    (s.deviceInputs es).timerOk := by
  induction es generalizing s with
  | nil => exact h
  | cons e es ih =>
    refine ih ?_
    unfold State.deviceInput
    split
    · cases e with
      | tick => exact State.tick_timerOk h
      | key k => exact h
    · exact h

theorem State.arrive_timerOk {s : State} (h : s.timerOk) : s.arrive.timerOk :=
  State.deviceInputs_timerOk h s.nextInputs

/-! ### Boundary events -/

/-- All the application of a waiting key can do (60_exceptions.md R260). -/
theorem State.applyKey_cases (s : State) :
    (s.kev = true ∧
      s.applyKey = { (s.deviceWrite keyboardAddr s.kbyte).setPending 1 with kev := false }) ∨
    (s.kev = false ∧ s.applyKey = s) := by
  unfold State.applyKey
  cases h : s.kev
  · exact .inr ⟨rfl, rfl⟩
  · exact .inl ⟨rfl, rfl⟩

/-- All the application of a waiting timer event can do (60_exceptions.md R260). -/
theorem State.applyTimer_cases (s : State) :
    (s.tev = true ∧ s.applyTimer = { s.setPending 0 with tev := false }) ∨
    (s.tev = false ∧ s.applyTimer = s) := by
  unfold State.applyTimer
  cases h : s.tev
  · exact .inr ⟨rfl, rfl⟩
  · exact .inl ⟨rfl, rfl⟩

theorem Byte.getLsbD_or_of_left {x : Byte} (y : Byte) {k : Nat} (h : x.getLsbD k = true) :
    (x ||| y).getLsbD k = true := by rw [BitVec.getLsbD_or, h]; rfl

/-- The application of a waiting timer event, as one update; no pending bit is lost. -/
theorem State.applyTimer_spec (s : State) : ∃ i, s.applyTimer = { s with is := i, tev := false } ∧
    ∀ k, s.is.getLsbD k = true → i.getLsbD k = true := by
  rcases s.applyTimer_cases with ⟨h, e⟩ | ⟨h, e⟩ <;> rw [e]
  · exact ⟨_, rfl, fun k hk => Byte.getLsbD_or_of_left _ hk⟩
  · exact ⟨s.is, by rw [← h], fun _ h => h⟩

/-- The application of a waiting key event, as one update: only 0xF4 may change; no pending bit is
lost. -/
theorem State.applyKey_spec (s : State) :
    ∃ m i, s.applyKey = { s with mem := m, is := i, kev := false } ∧
      (∀ a : Byte, a ≠ 0xF4 → Memory.read m a.toNat = s.read a) ∧
      (s.memOk → Memory.wf m = true) ∧ (s.kev = false → m = s.mem) ∧
      (s.kev = true → m = (s.deviceWrite keyboardAddr s.kbyte).mem) ∧
      ∀ k, s.is.getLsbD k = true → i.getLsbD k = true := by
  rcases s.applyKey_cases with ⟨h, e⟩ | ⟨h, e⟩ <;> rw [e]
  · exact ⟨_, _, rfl, fun a ha => Memory.read_write_other _ fun e => ha (BitVec.eq_of_toNat_eq e),
      fun h => State.deviceWrite_memOk h _ _, fun h' => (by rw [h] at h'; cases h'), fun _ => rfl,
      fun k hk => Byte.getLsbD_or_of_left _ hk⟩
  · exact ⟨s.mem, s.is, by rw [← h], fun _ _ => rfl, fun h => h, fun _ => rfl,
      fun h' => (by rw [h] at h'; cases h'), fun _ h => h⟩

/-- All the application of the waiting events can do (60_exceptions.md R260), as one update. -/
theorem State.events_spec (s : State) :
    ∃ m i, s.applyKey.applyTimer = { s with mem := m, is := i, kev := false, tev := false } ∧
      (∀ a : Byte, a ≠ 0xF4 → Memory.read m a.toNat = s.read a) ∧
      (s.memOk → Memory.wf m = true) ∧ (s.kev = false → m = s.mem) ∧
      (s.kev = true → m = (s.deviceWrite keyboardAddr s.kbyte).mem) ∧
      ∀ k, s.is.getLsbD k = true → i.getLsbD k = true := by
  obtain ⟨m, i, e, h1, h2, h3, h4, h5⟩ := s.applyKey_spec
  obtain ⟨j, e', h6⟩ := s.applyKey.applyTimer_spec
  rw [e']
  rw [e] at h6 ⊢
  exact ⟨m, j, rfl, h1, h2, h3, h4, fun k hk => h6 k (h5 k hk)⟩

/-! ### The poll -/

/-- The lowest line is below 8, its bit is set and every lower bit is clear. -/
theorem lowestLine_eq_some {m : Byte} {n : Nat} (h : lowestLine m = some n) :
    n < 8 ∧ m.getLsbD n = true ∧ ∀ k, k < n → m.getLsbD k = false := by
  have key : ∀ m : Byte, ∀ n ∈ lowestLine m,
      n < 8 ∧ m.getLsbD n = true ∧ ∀ k, k < n → m.getLsbD k = false := by decide
  exact key m n h

theorem lowestLine_eq_none {m : Byte} : lowestLine m = none ↔ m = 0 := by
  have key : ∀ m : Byte, lowestLine m = none ↔ m = 0 := by decide
  exact key m

/-- All the poll can do: nothing, or enter the lowest pending and unmasked line with IE = 1
(60_exceptions.md R250). -/
theorem State.poll_cases (s : State) :
    ((s.ie = false ∨ s.is &&& s.im = 0) ∧ s.poll = s) ∨
    (∃ n, s.ie = true ∧ lowestLine (s.is &&& s.im) = some n ∧ s.poll = s.enter n) := by
  unfold State.poll
  cases h : s.ie
  · exact .inl ⟨.inl rfl, by simp⟩
  · cases hl : lowestLine (s.is &&& s.im) with
    | none => exact .inl ⟨.inr (lowestLine_eq_none.1 hl), by simp⟩
    | some n => exact .inr ⟨n, rfl, rfl, by simp⟩

/-- All the boundary can do. -/
theorem State.boundary_cases (s : State) :
    (s.run = .running ∧ s.boundary = s.applyKey.applyTimer.poll) ∨
    (s.run ≠ .running ∧ s.boundary = s) := by
  unfold State.boundary
  cases h : s.run
  · exact .inl ⟨rfl, rfl⟩
  · exact .inr ⟨by simp, rfl⟩
  · exact .inr ⟨by simp, rfl⟩

/-! ### The load port -/

theorem State.load_of_fits (s : State) {image : List Byte} (h : image.length ≤ 256) :
    s.load image = { State.reset with
      mem := Memory.copyAt [] 0 image, plim := image.length, inputs := s.inputs, draws := s.draws } := by
  unfold State.load WellFormed.image
  rw [decide_eq_true h]
  rfl

theorem State.load_of_too_long (s : State) {image : List Byte} (h : 256 < image.length) :
    s.load image = s := by
  unfold State.load WellFormed.image
  rw [decide_eq_false (by omega)]
  rfl

end Sys2Proof.Machine
end

