-- ==== Sys2Proof/Laws/Step.lean ====
section
/-! SUPPORT. All a step can do, said once. -/

namespace Sys2Proof.Machine

/-- The fetch does not depend on the inputs that arrive. -/
@[simp] theorem State.arrive_fetch (s : State) : s.arrive.fetch = s.fetch := by
  simp [State.fetch, State.fetchByte, State.pcAfter]

/-- All a step that answers a next state can do: raise the fault of a rejected fetch, or execute the
instruction fetched and pass its boundary (30_encoding.md R100). -/
theorem step_cases {s t : State} (h : step s = .next t) :
    s.run = .running ∧
    ((∃ e, s.fetch = .error e ∧ t = s.arrive.rejectFetch e) ∨
     (∃ i u, s.fetch = .ok i ∧ exec i s.arrive = .next u ∧ t = u.boundary)) := by
  unfold step at h
  split at h
  · cases h
  · cases h
  · rename_i hr
    refine ⟨hr, ?_⟩
    rw [State.arrive_fetch] at h
    cases hf : s.fetch with
    | error e =>
      rw [hf] at h
      exact .inl ⟨e, rfl, by cases h; rfl⟩
    | ok i =>
      rw [hf] at h
      dsimp only at h
      cases he : exec i s.arrive with
      | next u =>
        rw [he] at h
        exact .inr ⟨i, u, rfl, he, by cases h; rfl⟩
      | fault f =>
        rw [he] at h
        cases h
      | refused r =>
        rw [he] at h
        cases h

/-- A running core whose bytes at the PC spell no instruction. -/
theorem step_of_rejected {s : State} (hr : s.run = .running) {e : Reject}
    (hf : s.fetch = .error e) : step s = .next (s.arrive.rejectFetch e) := by
  unfold step
  rw [hr, State.arrive_fetch, hf]

/-- A running core whose bytes at the PC spell an instruction that answers a next state. -/
theorem step_of_exec {s u : State} (hr : s.run = .running) {i : Instr} (hf : s.fetch = .ok i)
    (he : exec i s.arrive = .next u) : step s = .next u.boundary := by
  unfold step
  rw [hr, State.arrive_fetch, hf]
  dsimp only
  rw [he]

end Sys2Proof.Machine
end

