-- ==== Sys2Proof/Laws/Exec.lean ====
section
/-! SUPPORT. All that executing any instruction can do, said once: it raises a fault of its own, or it
completes within the bounds of `Completed`; and with it all that interrupt entry and a step can do. -/

namespace Sys2Proof.Machine

/-- What every instruction that completes keeps, and what each kind of state can become. -/
structure Completed (i : Instr) (s t : State) : Prop where
  record  : t.fkind = s.fkind ∧ t.faddr = s.faddr ∧ t.fbyte = s.fbyte ∧ t.fsrc = s.fsrc
  devices : DevicesKept s t
  run     : t.run = s.run ∨ (i = .hlt ∧ t.run = .halted)
  fl      : t.fl = s.fl ∨ (t.flOk ∧ (i = .iret ∨ ∃ a b, i = .cmp a b))
  ie      : t.ie = s.ie ∨ (i = .iret ∧ t.ie = true)
  is      : t.is = s.is ∨ ∃ r, i = .int r ∧ t.is = s.is ||| ((1 : Byte) <<< (s.reg r).toNat)
  mem     : t.mem = s.mem ∨ ∃ a v, t.mem = (s.write a v).mem ∧
              ((∃ x y, i = .st x y ∧ a = s.ea x) ∨ (s.plim ≤ a.toNat ∧ a.toNat ≤ 0xF2))
  out     : t.out = s.out ∨ ∃ r, (i = .prn r ∧ t.out = s.out ++ [.num (sext8 (s.reg r))]) ∨
              (i = .pra r ∧ t.out = s.out ++ [.char (s.reg r)])

/-- A state that differs from `s` in its registers and PC only. -/
theorem Completed.of_regs_pc (i : Instr) {s t : State}
    (h : t = { s with regs := t.regs, pc := t.pc }) : Completed i s t := by
  rw [h]
  exact ⟨⟨rfl, rfl, rfl, rfl⟩, ⟨rfl, rfl, rfl, rfl, rfl, rfl, rfl⟩, .inl rfl, .inl rfl, .inl rfl, .inl rfl,
    .inl rfl, .inl rfl⟩

/-- A state that differs from `s` in its registers, its PC and one byte in the stack region. -/
theorem Completed.of_push (i : Instr) {s t : State} {v : Byte}
    (hc : stackCheckPush s.sp.toNat s.plim 1 = none)
    (h : t = { s with regs := t.regs, pc := t.pc, mem := (s.write (s.sp - 1) v).mem }) :
    Completed i s t := by
  obtain ⟨h1, h2⟩ := stackCheckPush_eq_none.1 hc
  rw [h]
  exact ⟨⟨rfl, rfl, rfl, rfl⟩, ⟨rfl, rfl, rfl, rfl, rfl, rfl, rfl⟩, .inl rfl, .inl rfl, .inl rfl, .inl rfl,
    .inr ⟨s.sp - 1, v, rfl, .inr ⟨by bv_omega, by bv_omega⟩⟩, .inl rfl⟩

/-- An instruction's fault is never "none" and is its own, not an entry's. -/
def RaisesOwnFault (s t : State) : Prop :=
  ∃ kind addr byte, kind ≠ .none ∧ t = s.raise kind addr byte .instruction

theorem stackCheckPush_ne_none {sp plim k : Nat} {kind : FaultKind}
    (h : stackCheckPush sp plim k = some kind) : kind ≠ .none := by
  rcases stackCheckPush_eq_some h with ⟨-, rfl⟩ | ⟨-, -, rfl⟩ <;> decide

theorem stackCheckPop_ne_none {sp plim k : Nat} {kind : FaultKind}
    (h : stackCheckPop sp plim k = some kind) : kind ≠ .none := by
  rcases stackCheckPop_eq_some h with ⟨-, rfl⟩ | ⟨-, -, rfl⟩ <;> decide

/-- Every instruction answers a next state: it raises its own fault or completes. -/
theorem exec_cases (i : Instr) (s : State) :
    ∃ t, exec i s = .next t ∧ (RaisesOwnFault s t ∨ Completed i s t) := by
  cases i with
  | nop => exact ⟨_, rfl, .inr (.of_regs_pc _ rfl)⟩
  | hlt =>
    exact ⟨_, rfl, .inr ⟨⟨rfl, rfl, rfl, rfl⟩, ⟨rfl, rfl, rfl, rfl, rfl, rfl, rfl⟩, .inr ⟨rfl, rfl⟩,
      .inl rfl, .inl rfl, .inl rfl, .inl rfl, .inl rfl⟩⟩
  | ret =>
    refine ⟨_, rfl, ?_⟩
    rcases s.pop_cases 0x11 (fun v t => t.jump v) with ⟨k, hk, e⟩ | ⟨-, e⟩ <;> rw [e]
    · exact .inl ⟨k, _, _, stackCheckPop_ne_none hk, rfl⟩
    · exact .inr (.of_regs_pc _ rfl)
  | iret =>
    refine ⟨_, rfl, ?_⟩
    rcases s.interruptReturn_cases 0x13 with ⟨k, hk | ⟨-, hk⟩, e⟩ | ⟨-, -, e⟩ <;> rw [e]
    · exact .inl ⟨k, _, _, stackCheckPop_ne_none hk, rfl⟩
    · exact .inl ⟨k, _, _, stackCheckPop_ne_none hk, rfl⟩
    · exact .inr ⟨⟨rfl, rfl, rfl, rfl⟩, ⟨rfl, rfl, rfl, rfl, rfl, rfl, rfl⟩, .inl rfl,
        .inr ⟨flOk_of_masked s.popFrame_fl, .inl rfl⟩, .inr ⟨rfl, rfl⟩, .inl rfl, .inl rfl, .inl rfl⟩
  | push r =>
    refine ⟨_, rfl, ?_⟩
    rcases s.push_cases 0x45 (s.reg r) (fun t => t.advance 2) with ⟨k, hk, e⟩ | ⟨hk, e⟩ <;> rw [e]
    · exact .inl ⟨k, _, _, stackCheckPush_ne_none hk, rfl⟩
    · exact .inr (.of_push _ hk rfl)
  | pop r =>
    refine ⟨_, rfl, ?_⟩
    rcases s.pop_cases 0x46 (fun v t => (t.advance 2).setReg r v) with ⟨k, hk, e⟩ | ⟨-, e⟩ <;> rw [e]
    · exact .inl ⟨k, _, _, stackCheckPop_ne_none hk, rfl⟩
    · exact .inr (.of_regs_pc _ rfl)
  | prn r =>
    exact ⟨_, rfl, .inr ⟨⟨rfl, rfl, rfl, rfl⟩, ⟨rfl, rfl, rfl, rfl, rfl, rfl, rfl⟩, .inl rfl, .inl rfl,
      .inl rfl, .inl rfl, .inl rfl, .inr ⟨r, .inl ⟨rfl, rfl⟩⟩⟩⟩
  | pra r =>
    exact ⟨_, rfl, .inr ⟨⟨rfl, rfl, rfl, rfl⟩, ⟨rfl, rfl, rfl, rfl, rfl, rfl, rfl⟩, .inl rfl, .inl rfl,
      .inl rfl, .inl rfl, .inl rfl, .inr ⟨r, .inr ⟨rfl, rfl⟩⟩⟩⟩
  | call r =>
    refine ⟨_, rfl, ?_⟩
    rcases s.push_cases 0x50 (s.pcAfter 2) (fun t => t.jump (s.reg r)) with ⟨k, hk, e⟩ | ⟨hk, e⟩ <;>
      rw [e]
    · exact .inl ⟨k, _, _, stackCheckPush_ne_none hk, rfl⟩
    · exact .inr (.of_push _ hk rfl)
  | int r =>
    by_cases h : (s.reg r).toNat > 7
    · exact ⟨_, if_pos h, .inl ⟨.invalidOperand, _, _, by decide, rfl⟩⟩
    · exact ⟨_, if_neg h, .inr ⟨⟨rfl, rfl, rfl, rfl⟩, ⟨rfl, rfl, rfl, rfl, rfl, rfl, rfl⟩, .inl rfl,
        .inl rfl, .inl rfl, .inr ⟨r, rfl, rfl⟩, .inl rfl, .inl rfl⟩⟩
  | jmp r => exact ⟨_, rfl, .inr (.of_regs_pc _ (by rw [State.jumpIf_eq]; rfl))⟩
  | jeq r => exact ⟨_, rfl, .inr (.of_regs_pc _ (by rw [State.jumpIf_eq]; rfl))⟩
  | jne r => exact ⟨_, rfl, .inr (.of_regs_pc _ (by rw [State.jumpIf_eq]; rfl))⟩
  | jgt r => exact ⟨_, rfl, .inr (.of_regs_pc _ (by rw [State.jumpIf_eq]; rfl))⟩
  | jlt r => exact ⟨_, rfl, .inr (.of_regs_pc _ (by rw [State.jumpIf_eq]; rfl))⟩
  | jle r => exact ⟨_, rfl, .inr (.of_regs_pc _ (by rw [State.jumpIf_eq]; rfl))⟩
  | jge r => exact ⟨_, rfl, .inr (.of_regs_pc _ (by rw [State.jumpIf_eq]; rfl))⟩
  | inc r => exact ⟨_, rfl, .inr (.of_regs_pc _ rfl)⟩
  | dec r => exact ⟨_, rfl, .inr (.of_regs_pc _ rfl)⟩
  | not r => exact ⟨_, rfl, .inr (.of_regs_pc _ rfl)⟩
  | ldi r imm => exact ⟨_, rfl, .inr (.of_regs_pc _ rfl)⟩
  | ld a b => exact ⟨_, rfl, .inr (.of_regs_pc _ rfl)⟩
  | st a b =>
    exact ⟨_, rfl, .inr ⟨⟨rfl, rfl, rfl, rfl⟩, ⟨rfl, rfl, rfl, rfl, rfl, rfl, rfl⟩, .inl rfl, .inl rfl,
      .inl rfl, .inl rfl, .inr ⟨s.ea a, s.reg b, rfl, .inl ⟨a, b, rfl, rfl⟩⟩, .inl rfl⟩⟩
  | add a b => exact ⟨_, rfl, .inr (.of_regs_pc _ rfl)⟩
  | sub a b => exact ⟨_, rfl, .inr (.of_regs_pc _ rfl)⟩
  | mul a b => exact ⟨_, rfl, .inr (.of_regs_pc _ rfl)⟩
  | div a b =>
    refine ⟨_, rfl, ?_⟩
    rcases s.divide_cases 0xA3 (fun A B => A / B) a b with ⟨-, e⟩ | ⟨-, e⟩ <;> rw [e]
    · exact .inl ⟨.divisionByZero, _, _, by decide, rfl⟩
    · exact .inr (.of_regs_pc _ rfl)
  | mod a b =>
    refine ⟨_, rfl, ?_⟩
    rcases s.divide_cases 0xA4 (fun A B => A % B) a b with ⟨-, e⟩ | ⟨-, e⟩ <;> rw [e]
    · exact .inl ⟨.divisionByZero, _, _, by decide, rfl⟩
    · exact .inr (.of_regs_pc _ rfl)
  | cmp a b =>
    exact ⟨_, rfl, .inr ⟨⟨rfl, rfl, rfl, rfl⟩, ⟨rfl, rfl, rfl, rfl, rfl, rfl, rfl⟩, .inl rfl,
      .inr ⟨writeFl_flOk _ _, .inr ⟨a, b, rfl⟩⟩, .inl rfl, .inl rfl, .inl rfl, .inl rfl⟩⟩
  | and a b => exact ⟨_, rfl, .inr (.of_regs_pc _ rfl)⟩
  | or a b => exact ⟨_, rfl, .inr (.of_regs_pc _ rfl)⟩
  | xor a b => exact ⟨_, rfl, .inr (.of_regs_pc _ rfl)⟩
  | shl a b => exact ⟨_, rfl, .inr (.of_regs_pc _ rfl)⟩
  | shr a b => exact ⟨_, rfl, .inr (.of_regs_pc _ rfl)⟩

/-! ### Interrupt entry and the step -/

/-- Pushing bytes changes registers and memory only. -/
theorem State.pushAll_eq (s : State) (vs : List Byte) :
    s.pushAll vs = { s with regs := (s.pushAll vs).regs, mem := (s.pushAll vs).mem } := by
  induction vs generalizing s with
  | nil => rfl
  | cons v vs ih => rw [State.pushAll, ih]; rfl

/-- The updates of interrupt entry after its pushes, as one update. -/
theorem State.entered_eq {s t : State} {x : Regs} {m : Memory} (h : t = { s with regs := x, mem := m })
    (n : Nat) (p : Byte) :
    ((t.clearPending n).setIe false).jump p =
      { s with regs := x, mem := m, pc := p, is := s.is &&& ~~~((1 : Byte) <<< n), ie := false } := by
  subst h; rfl

/-- All interrupt entry can do: raise a stack fault of the entry's own, or save the context and go to
the handler (60_exceptions.md R253, R254). -/
theorem State.enter_spec (s : State) (n : Nat) :
    (∃ kind, (kind = .stackOverflow ∨ kind = .stackUnderflow) ∧
      s.enter n = s.raise kind s.pc (BitVec.ofNat 8 n) .entry) ∨
    (s.plim + 10 ≤ s.sp.toNat ∧ s.sp.toNat ≤ 0xF3 ∧ ∃ x p, s.enter n =
      { s with regs := x, mem := (s.pushAll s.frame).mem, pc := p,
               is := s.is &&& ~~~((1 : Byte) <<< n), ie := false }) := by
  rcases s.enter_cases n with ⟨k, hk, e⟩ | ⟨hk, e⟩ <;> rw [e]
  · rcases stackCheckPush_eq_some hk with ⟨-, h⟩ | ⟨-, -, h⟩
    · exact .inl ⟨k, .inl h, rfl⟩
    · exact .inl ⟨k, .inr h, rfl⟩
  · obtain ⟨a, b⟩ := stackCheckPush_eq_none.1 hk
    exact .inr ⟨a, b, _, _, State.entered_eq (s.pushAll_eq s.frame) n _⟩

/-- All a step can do: raise a fault of the instruction's; or complete the instruction and, unless it
is HLT, apply the waiting events and perhaps enter one line (30_encoding.md R100, R101). -/
theorem step_spec {s t : State} (h : step s = .next t) : s.run = .running ∧
    ((∃ k a b, k ≠ .none ∧ t = s.arrive.raise k a b .instruction) ∨
     (∃ i u, s.fetch = .ok i ∧ exec i s.arrive = .next u ∧ Completed i s.arrive u ∧
       ((u.run = .halted ∧ i = .hlt ∧ t = u) ∨
        (u.run = .running ∧ (t = u.applyKey.applyTimer ∨
          ∃ n, n < 8 ∧ u.applyKey.applyTimer.ie = true ∧
            u.applyKey.applyTimer.is.getLsbD n = true ∧
            (u.applyKey.applyTimer.reg .r5).getLsbD n = true ∧
            t = u.applyKey.applyTimer.enter n))))) := by
  obtain ⟨hr, h⟩ := step_cases h
  refine ⟨hr, ?_⟩
  rcases h with ⟨e, -, rfl⟩ | ⟨i, u, hf, he, rfl⟩
  · cases e
    · exact .inl ⟨_, _, _, by decide, rfl⟩
    · exact .inl ⟨_, _, _, by decide, rfl⟩
  · obtain ⟨u', hu', h⟩ := exec_cases i s.arrive
    rw [he] at hu'; cases hu'
    rcases h with ⟨k, a, b, hk, rfl⟩ | hc
    · exact .inl ⟨k, a, b, hk, rfl⟩
    · refine .inr ⟨i, u, hf, he, hc, ?_⟩
      rcases hc.run with hrun | ⟨hi, hrun⟩
      · have hu : u.run = .running := by rw [hrun, State.arrive_run, hr]
        refine .inr ⟨hu, ?_⟩
        rcases u.boundary_cases with ⟨-, e⟩ | ⟨h', -⟩
        · rw [e]
          rcases u.applyKey.applyTimer.poll_cases with ⟨-, e⟩ | ⟨n, hie, hl, e⟩
          · exact .inl e
          · obtain ⟨a, b, -⟩ := lowestLine_eq_some hl
            rw [BitVec.getLsbD_and, Bool.and_eq_true] at b
            exact .inr ⟨n, a, hie, b.1, b.2, e⟩
        · exact absurd hu h'
      · refine .inl ⟨hrun, hi, ?_⟩
        rcases u.boundary_cases with ⟨h', -⟩ | ⟨-, e⟩
        · rw [hrun] at h'; cases h'
        · exact e

end Sys2Proof.Machine
end

