-- ==== Sys2Proof/Laws/PerInstr.lean ====
section
/-! SUPPORT. The families of lemmas made per instruction: one lemma per constructor of `Instr`. -/

namespace Sys2Proof.Laws

/-- An instruction's bytes are well formed: the opcode's AA field is at most 2 and declares their
number, and operand byte 1 is a register byte (30_encoding.md R81, R83, R92). -/
def Encoding.Statement (i : Instr) : Prop := WellFormed.words (encode i) = true

theorem Encoding.register (op : Byte) (r : Reg) (h : WellFormed.operandCount op = 1) :
    WellFormed.words [op, regByte r] = true := by
  unfold WellFormed.words WellFormed.countOk WellFormed.lengthOk WellFormed.operandOneOk
  dsimp only
  rw [h]
  cases r <;> rfl

theorem Encoding.registerAndByte (op : Byte) (r : Reg) (b : Byte)
    (h : WellFormed.operandCount op = 2) : WellFormed.words [op, regByte r, b] = true := by
  unfold WellFormed.words WellFormed.countOk WellFormed.lengthOk WellFormed.operandOneOk
  dsimp only
  rw [h]
  cases r <;> rfl

theorem Encoding.nop : Encoding.Statement .nop := rfl
theorem Encoding.hlt : Encoding.Statement .hlt := rfl
theorem Encoding.ret : Encoding.Statement .ret := rfl
theorem Encoding.iret : Encoding.Statement .iret := rfl
theorem Encoding.push (r : Reg) : Encoding.Statement (.push r) :=
  Encoding.register _ r rfl
theorem Encoding.pop (r : Reg) : Encoding.Statement (.pop r) :=
  Encoding.register _ r rfl
theorem Encoding.prn (r : Reg) : Encoding.Statement (.prn r) :=
  Encoding.register _ r rfl
theorem Encoding.pra (r : Reg) : Encoding.Statement (.pra r) :=
  Encoding.register _ r rfl
theorem Encoding.call (r : Reg) : Encoding.Statement (.call r) :=
  Encoding.register _ r rfl
theorem Encoding.int (r : Reg) : Encoding.Statement (.int r) :=
  Encoding.register _ r rfl
theorem Encoding.jmp (r : Reg) : Encoding.Statement (.jmp r) :=
  Encoding.register _ r rfl
theorem Encoding.jeq (r : Reg) : Encoding.Statement (.jeq r) :=
  Encoding.register _ r rfl
theorem Encoding.jne (r : Reg) : Encoding.Statement (.jne r) :=
  Encoding.register _ r rfl
theorem Encoding.jgt (r : Reg) : Encoding.Statement (.jgt r) :=
  Encoding.register _ r rfl
theorem Encoding.jlt (r : Reg) : Encoding.Statement (.jlt r) :=
  Encoding.register _ r rfl
theorem Encoding.jle (r : Reg) : Encoding.Statement (.jle r) :=
  Encoding.register _ r rfl
theorem Encoding.jge (r : Reg) : Encoding.Statement (.jge r) :=
  Encoding.register _ r rfl
theorem Encoding.inc (r : Reg) : Encoding.Statement (.inc r) :=
  Encoding.register _ r rfl
theorem Encoding.dec (r : Reg) : Encoding.Statement (.dec r) :=
  Encoding.register _ r rfl
theorem Encoding.not (r : Reg) : Encoding.Statement (.not r) :=
  Encoding.register _ r rfl
theorem Encoding.ldi (r : Reg) (imm : Byte) : Encoding.Statement (.ldi r imm) :=
  Encoding.registerAndByte _ r imm rfl
theorem Encoding.ld (a b : Reg) : Encoding.Statement (.ld a b) :=
  Encoding.registerAndByte _ a (regByte b) rfl
theorem Encoding.st (a b : Reg) : Encoding.Statement (.st a b) :=
  Encoding.registerAndByte _ a (regByte b) rfl
theorem Encoding.add (a b : Reg) : Encoding.Statement (.add a b) :=
  Encoding.registerAndByte _ a (regByte b) rfl
theorem Encoding.sub (a b : Reg) : Encoding.Statement (.sub a b) :=
  Encoding.registerAndByte _ a (regByte b) rfl
theorem Encoding.mul (a b : Reg) : Encoding.Statement (.mul a b) :=
  Encoding.registerAndByte _ a (regByte b) rfl
theorem Encoding.div (a b : Reg) : Encoding.Statement (.div a b) :=
  Encoding.registerAndByte _ a (regByte b) rfl
theorem Encoding.mod (a b : Reg) : Encoding.Statement (.mod a b) :=
  Encoding.registerAndByte _ a (regByte b) rfl
theorem Encoding.cmp (a b : Reg) : Encoding.Statement (.cmp a b) :=
  Encoding.registerAndByte _ a (regByte b) rfl
theorem Encoding.and (a b : Reg) : Encoding.Statement (.and a b) :=
  Encoding.registerAndByte _ a (regByte b) rfl
theorem Encoding.or (a b : Reg) : Encoding.Statement (.or a b) :=
  Encoding.registerAndByte _ a (regByte b) rfl
theorem Encoding.xor (a b : Reg) : Encoding.Statement (.xor a b) :=
  Encoding.registerAndByte _ a (regByte b) rfl
theorem Encoding.shl (a b : Reg) : Encoding.Statement (.shl a b) :=
  Encoding.registerAndByte _ a (regByte b) rfl
theorem Encoding.shr (a b : Reg) : Encoding.Statement (.shr a b) :=
  Encoding.registerAndByte _ a (regByte b) rfl

end Sys2Proof.Laws
end

