-- ==== Sys2Proof/Tests/Slice0.lean ====
section
/-! SUPPORT. Tests, each of one step on a small state, with the results spec/95_test_vectors.md gives
(V<n>, E<n>) or worked out by hand from the rule named; the smoke tests of WellFormed; and, for every
statement with hypotheses, a witness that its hypotheses can be met together. -/

namespace Sys2Proof.Tests

open Sys2Proof Sys2Proof.Machine

/-! ### Helpers -/

/-- A field of the next state, when there is one. -/
def after {α : Type} (o : Host.Outcome State Fault Refusal) (f : State → α) : Option α :=
  match o with
  | .next t => some (f t)
  | .fault _ => none
  | .refused _ => none

/-- The core after reset with `bytes` from `pc` on, PC there, `x[0] = A` and `x[1] = B`; in its next step
no input arrives. -/
def placed (pc : Byte) (bytes : List Byte) (A B : Byte) : State :=
  { State.reset with
    pc := pc, mem := Memory.copyAt [] pc.toNat bytes, regs := ⟨A, B, 0, 0, 0, 0, 0, 0xF3⟩
    inputs := [[]] }

/-- The core at address 0x10 with the two-byte jump `op, 2`, x[2] = 0x40 and FL = `fl`. -/
def jumpState (op fl : Byte) : State := ((placed 0x10 [op, 0x02] 0 0).setReg .r2 0x40).writeFl fl

/-- The fault a step leaves: kind, address, byte, source. -/
def record (s : State) : FaultKind × Byte × Byte × FaultSource :=
  (s.fkind, s.faddr, s.fbyte, s.fsrc)

/-- x[0] and the PC after a step of the instruction `op 00 01` at 0, and FL, which was 0x04. -/
def alu (op A B : Byte) : Option (Byte × Byte × Byte) :=
  after (step ((placed 0 [op, 0x00, 0x01] A B).writeFl 0x04)) fun t => (t.reg .r0, t.pc, t.fl)

/-- The same of the instruction `op 00`. -/
def alu1 (op A : Byte) : Option (Byte × Byte × Byte) :=
  after (step ((placed 0 [op, 0x00] A 0).writeFl 0x04)) fun t => (t.reg .r0, t.pc, t.fl)

/-! ### WellFormed refuses ill-formed terms -/

theorem test_wf_count : WellFormed.countOk [0xC0] = false := by decide

theorem test_wf_length :
    WellFormed.lengthOk [0x82, 0x00] = false ∧ WellFormed.lengthOk [0x00, 0x00] = false := by decide

theorem test_wf_register_byte : WellFormed.registerByteOk 0x08 = false := by decide

theorem test_wf_operand_one : WellFormed.operandOneOk [0x45, 0x08] = false := by decide

theorem test_wf_words :
    WellFormed.words [] = false ∧ WellFormed.words [0xC0] = false ∧
    WellFormed.words [0x82, 0x00] = false ∧ WellFormed.words [0x45, 0x08] = false ∧
    WellFormed.words [0x82, 0x07, 0xFF] = true := by decide

theorem test_wf_image :
    WellFormed.image (List.replicate 257 0) = false ∧
    WellFormed.image (List.replicate 256 0) = true :=
  ⟨decide_eq_false (by rw [List.length_replicate]; decide),
    decide_eq_true (by rw [List.length_replicate])⟩

/-! ### Decoding: words written out from 30_encoding.md R83 and R88, AABCDDDD bit by bit -/

theorem test_decode_z :
    decode 0b00000000 0 0 = .ok .nop ∧ decode 0b00000001 0 0 = .ok .hlt ∧
    decode 0b00010001 0 0 = .ok .ret ∧ decode 0b00010011 0 0 = .ok .iret :=
  ⟨rfl, rfl, rfl, rfl⟩

theorem test_decode_stack_and_output :
    decode 0b01000101 0b00000001 0 = .ok (.push .r1) ∧
    decode 0b01000110 0b00000010 0 = .ok (.pop .r2) ∧
    decode 0b01000111 0b00000011 0 = .ok (.prn .r3) ∧
    decode 0b01001000 0b00000100 0 = .ok (.pra .r4) :=
  ⟨rfl, rfl, rfl, rfl⟩

theorem test_decode_control :
    decode 0b01010000 0b00000101 0 = .ok (.call .r5) ∧
    decode 0b01010010 0b00000110 0 = .ok (.int .r6) ∧
    decode 0b01010100 0b00000111 0 = .ok (.jmp .r7) ∧
    decode 0b01010101 0b00000000 0 = .ok (.jeq .r0) ∧
    decode 0b01010110 0b00000001 0 = .ok (.jne .r1) ∧
    decode 0b01010111 0b00000010 0 = .ok (.jgt .r2) ∧
    decode 0b01011000 0b00000011 0 = .ok (.jlt .r3) ∧
    decode 0b01011001 0b00000100 0 = .ok (.jle .r4) ∧
    decode 0b01011010 0b00000101 0 = .ok (.jge .r5) :=
  ⟨rfl, rfl, rfl, rfl, rfl, rfl, rfl, rfl, rfl⟩

theorem test_decode_alu_one_register :
    decode 0b01100101 0b00000110 0 = .ok (.inc .r6) ∧
    decode 0b01100110 0b00000111 0 = .ok (.dec .r7) ∧
    decode 0b01101001 0b00000000 0 = .ok (.not .r0) :=
  ⟨rfl, rfl, rfl⟩

theorem test_decode_data :
    decode 0b10000010 0b00000111 0b11111111 = .ok (.ldi .r7 0xFF) ∧
    decode 0b10000011 0b00000001 0b00000010 = .ok (.ld .r1 .r2) ∧
    decode 0b10000100 0b00000010 0b00000001 = .ok (.st .r2 .r1) :=
  ⟨rfl, rfl, rfl⟩

theorem test_decode_alu_two_registers :
    decode 0b10100000 0b00000000 0b00000001 = .ok (.add .r0 .r1) ∧
    decode 0b10100001 0b00000001 0b00000010 = .ok (.sub .r1 .r2) ∧
    decode 0b10100010 0b00000010 0b00000011 = .ok (.mul .r2 .r3) ∧
    decode 0b10100011 0b00000011 0b00000100 = .ok (.div .r3 .r4) ∧
    decode 0b10100100 0b00000100 0b00000101 = .ok (.mod .r4 .r5) ∧
    decode 0b10100111 0b00000101 0b00000110 = .ok (.cmp .r5 .r6) ∧
    decode 0b10101000 0b00000110 0b00000111 = .ok (.and .r6 .r7) ∧
    decode 0b10101010 0b00000111 0b00000000 = .ok (.or .r7 .r0) ∧
    decode 0b10101011 0b00000000 0b00000010 = .ok (.xor .r0 .r2) ∧
    decode 0b10101100 0b00000001 0b00000011 = .ok (.shl .r1 .r3) ∧
    decode 0b10101101 0b00000010 0b00000100 = .ok (.shr .r2 .r4) :=
  ⟨rfl, rfl, rfl, rfl, rfl, rfl, rfl, rfl, rfl, rfl, rfl⟩

/-- V84 to V87: rejected by name, the first bad byte reported. -/
theorem test_decode_rejects :
    decode 0x82 0x08 0x00 = .error (.invalidOperand 1 0x08) ∧
    decode 0xA0 0x00 0x09 = .error (.invalidOperand 2 0x09) ∧
    decode 0xA3 0x09 0x09 = .error (.invalidOperand 1 0x09) ∧
    decode 0xC0 0x09 0x09 = .error (.invalidOpcode 0xC0) ∧
    decode 0x02 0x00 0x00 = .error (.invalidOpcode 0x02) ∧
    decode 0xA5 0x00 0x00 = .error (.invalidOpcode 0xA5) :=
  ⟨rfl, rfl, rfl, rfl, rfl, rfl⟩

/-- Words of the opcode table: the first byte in bits 7..0. -/
theorem test_table_words :
    decodeTableWord 8 0x13 = some .iret ∧ decodeTableWord 16 0x0345 = some (.push .r3) ∧
    decodeTableWord 24 0x0201A0 = some (.add .r1 .r2) ∧
    decodeTableWord 16 0x82 = some (.ldi .r0 0) ∧ decodeTableWord 24 0x0000C0 = none :=
  ⟨rfl, rfl, rfl, rfl, rfl⟩

/-- The first step after reset answers a next state, whatever its draw of inputs. -/
theorem test_first_step :
    after (step (State.reset.withFetchWord 24 0x440382)) (fun _ => ()) = some () ∧
    after (step (State.reset.withFetchWord 8 0x01)) (fun t => (t.run, t.pc)) =
      some (.halted, 0x01) ∧
    after (step (State.reset.withFetchWord 24 0x0201A3)) record =
      some (.divisionByZero, 0x00, 0xA3, .instruction) := by decide

/-- The first step after reset runs the word placed. -/
theorem test_with_fetch_word :
    after (step ({ State.reset with inputs := [[]] }.withFetchWord 24 0x440382)) (fun t => (t.reg .r3, t.pc)) =
      some (0x44, 0x03) := by decide

/-! ### ALU -/

theorem test_add : alu 0xA0 0xC8 0x64 = some (0x2C, 3, 0x04) := by decide -- V2

theorem test_add_same_register :
    after (step (placed 0 [0xA0, 0x00, 0x00] 0x81 0)) (fun t => t.reg .r0) = some 0x02 := by
  decide -- V4

theorem test_sub : alu 0xA1 0x03 0x05 = some (0xFE, 3, 0x04) := by decide -- V5

theorem test_mul : alu 0xA2 0x0F 0x11 = some (0xFF, 3, 0x04) := by decide -- V10

theorem test_mul_wraps : alu 0xA2 0xFF 0xFF = some (0x01, 3, 0x04) := by decide -- V9

theorem test_div_unsigned : alu 0xA3 0x80 0x02 = some (0x40, 3, 0x04) := by decide -- V12

theorem test_div_by_zero :
    after (step (placed 0x06 [0xA3, 0x00, 0x01] 0x09 0x00))
      (fun t => (record t, t.reg .r0, t.pc, t.run)) =
      some ((.divisionByZero, 0x06, 0xA3, .instruction), 0x09, 0x06, .faulted) := by decide -- V31

theorem test_mod : alu 0xA4 0xFF 0x10 = some (0x0F, 3, 0x04) := by decide -- V15

theorem test_mod_by_zero :
    after (step (placed 0x10 [0xA4, 0x00, 0x01] 0x09 0x00)) record =
      some (.divisionByZero, 0x10, 0xA4, .instruction) := by decide -- V32

theorem test_inc : alu1 0x65 0xFF = some (0x00, 2, 0x04) := by decide -- V18

theorem test_dec : alu1 0x66 0x00 = some (0xFF, 2, 0x04) := by decide -- V19

theorem test_and : alu 0xA8 0xF0 0x3C = some (0x30, 3, 0x04) := by decide -- V20

theorem test_or : alu 0xAA 0xF0 0x0F = some (0xFF, 3, 0x04) := by decide -- V21

theorem test_xor : alu 0xAB 0x1C 0x07 = some (0x1B, 3, 0x04) := by decide -- V22

theorem test_not : alu1 0x69 0x07 = some (0xF8, 2, 0x04) := by decide -- V25

theorem test_shl : alu 0xAC 0x81 0x01 = some (0x02, 3, 0x04) := by decide -- V26

theorem test_shl_by_eight : alu 0xAC 0x01 0x08 = some (0x00, 3, 0x04) := by decide -- V28

theorem test_shr : alu 0xAD 0x80 0x01 = some (0x40, 3, 0x04) := by decide -- V30

theorem test_shr_whole_count : alu 0xAD 0xFF 0xFF = some (0x00, 3, 0x04) := by decide -- V30b

/-- V36: FL was 0x04, and CMP leaves x[0]. -/
theorem test_cmp : alu 0xA7 0x80 0x7F = some (0x80, 3, 0x02) := by decide

theorem test_cmp_equal_and_less :
    alu 0xA7 0x00 0x00 = some (0x00, 3, 0x01) ∧ alu 0xA7 0x7F 0x80 = some (0x7F, 3, 0x04) := by
  decide -- V34, V37

/-! ### Stack -/

theorem test_push_r7 :
    after (step (placed 0 [0x45, 0x07] 0 0)) (fun t => (t.sp, t.read 0xF2)) = some (0xF2, 0xF3) := by
  decide -- V41

/-- V43: SP = PLIM = 6. -/
theorem test_push_overflow :
    after (step ({ placed 3 [0x45, 0x00] 0 0 with plim := 6 }.setSp 6)) (fun t => (record t, t.sp)) =
      some ((.stackOverflow, 0x03, 0x45, .instruction), 0x06) := by decide

/-- The last step of V42: SP = 0xF2 and the byte there is 0x80. -/
theorem test_pop_r7 :
    after (step (((placed 6 [0x46, 0x07] 0 0).setSp 0xF2).write 0xF2 0x80)) (fun t => (t.sp, t.pc)) =
      some (0x80, 0x08) := by decide

theorem test_pop_underflow :
    after (step (placed 0 [0x46, 0x00] 0 0)) record =
      some (.stackUnderflow, 0x00, 0x46, .instruction) := by decide -- V44

theorem test_call :
    after (step (placed 0x0F [0x50, 0x00] 0x19 0)) (fun t => (t.read 0xF2, t.sp, t.pc)) =
      some (0x11, 0xF2, 0x19) := by decide -- V47

theorem test_call_at_top :
    after (step (placed 0xFE [0x50, 0x00] 0x19 0)) (fun t => t.read 0xF2) = some 0x00 := by
  decide -- V49

theorem test_ret :
    after (step (((placed 0x1C [0x11] 0 0).setSp 0xF2).write 0xF2 0x11)) (fun t => (t.pc, t.sp)) =
      some (0x11, 0xF3) := by decide -- V48

theorem test_ret_underflow :
    after (step (placed 0 [0x11] 0 0)) record = some (.stackUnderflow, 0x00, 0x11, .instruction) := by
  decide -- V45

/-! ### Jumps (T = 0x40, a0 = 0x10) -/

theorem test_jmp : after (step (jumpState 0x54 0x00)) State.pc = some 0x40 := by decide -- V52

theorem test_jeq :
    [0x01, 0x02].map (fun f => after (step (jumpState 0x55 f)) State.pc) = [some 0x40, some 0x12] := by
  decide -- V53, V54

theorem test_jne :
    [0x04, 0x01].map (fun f => after (step (jumpState 0x56 f)) State.pc) = [some 0x40, some 0x12] := by
  decide -- V55, V56

theorem test_jgt :
    [0x02, 0x04].map (fun f => after (step (jumpState 0x57 f)) State.pc) = [some 0x40, some 0x12] := by
  decide -- V58, V59

theorem test_jlt :
    [0x04, 0x01].map (fun f => after (step (jumpState 0x58 f)) State.pc) = [some 0x40, some 0x12] := by
  decide -- V60, V61

theorem test_jle :
    [0x01, 0x04, 0x02].map (fun f => after (step (jumpState 0x59 f)) State.pc) =
      [some 0x40, some 0x40, some 0x12] := by decide -- V62 to V64

theorem test_jge :
    [0x02, 0x01, 0x04].map (fun f => after (step (jumpState 0x5A f)) State.pc) =
      [some 0x40, some 0x40, some 0x12] := by decide -- V65 to V67

/-! ### Data movement and output -/

theorem test_ldi_wraps :
    after (step { placed 0xFF [0x82] 0 0 with mem := [(0, 0x03), (1, 0x44), (0xFF, 0x82)] })
      (fun t => (t.reg .r3, t.pc)) = some (0x44, 0x02) := by decide -- V89

theorem test_ld :
    after (step ((placed 0 [0x83, 0x02, 0x01] 0 0xE0).write 0xE0 0xAA)) (fun t => t.reg .r2) =
      some 0xAA := by decide -- V71

theorem test_st :
    after (step (placed 0 [0x84, 0x01, 0x00] 0x20 0xF8)) (fun t => t.read 0xF8) = some 0x20 := by
  decide -- V72

theorem test_st_keyboard :
    after (step (placed 0 [0x84, 0x01, 0x00] 0x55 0xF4)) (fun t => (t.read 0xF4, t.run)) =
      some (0x00, .running) := by decide -- V73

theorem test_prn :
    after (step (placed 0 [0x47, 0x00] 0xF8 0)) State.out = some [.num (-8)] := by decide -- V74

theorem test_prn_bounds :
    after (step (placed 0 [0x47, 0x00] 0x7F 0)) State.out = some [.num 127] ∧
    after (step (placed 0 [0x47, 0x00] 0x80 0)) State.out = some [.num (-128)] := by decide -- V75

theorem test_pra :
    after (step (placed 0 [0x48, 0x00] 0x41 0)) State.out = some [.char 0x41] := by decide -- V76

/-! ### System instructions -/

theorem test_nop : after (step (placed 0x10 [0x00] 0 0)) State.pc = some 0x11 := by decide -- V77

/-- V78: a waiting timer event is not applied. -/
theorem test_hlt :
    after (step { placed 0x50 [0x01] 0 0 with tev := true }) (fun t => (t.run, t.pc, t.is, t.tev)) =
      some (.halted, 0x51, 0x00, true) := by decide

theorem test_int :
    after (step (placed 0 [0x52, 0x00] 2 0)) (fun t => (t.is, t.ie)) = some (0x04, true) := by
  decide -- V79

theorem test_int_bad_line :
    after (step (placed 3 [0x52, 0x00] 8 0)) record =
      some (.invalidOperand, 0x03, 0x08, .instruction) := by decide -- V80

/-- The frame of P4 in memory, SP = 0xE9, IRET at 0x26, and the saved FL byte `fl`. -/
def frameState (fl : Byte) : State :=
  { State.reset with
    pc := 0x26, ie := false, regs := ⟨0, 0, 0, 0, 0, 1, 1, 0xE9⟩
    mem := Memory.copyAt [(0x26, 0x13)] 0xE9
      [0xEA, 0x00, 0x01, 0x15, 0x00, 0x00, 0xE0, 0x20, fl, 0x1B]
    inputs := [[]] }

theorem test_iret :
    after (step (frameState 0x01)) (fun t => (t.regs, t.fl, t.pc, t.ie)) =
      some (⟨0x20, 0xE0, 0, 0, 0x15, 0x01, 0, 0xF3⟩, 0x01, 0x1B, true) := by decide -- V82

theorem test_iret_drops_flag_bits :
    after (step (frameState 0xFF)) State.fl = some 0x07 := by decide -- V83

/-! ### Interrupts and devices -/

/-- V91, first step: a key during LDI; line 1 stays pending because it is masked. -/
theorem test_key :
    after (step { placed 0 [0x82, 0x01, 0xF4] 0 0 with inputs := [[.key 0x41]] })
      (fun t => (t.read 0xF4, t.is, t.pc)) = some (0x41, 0x02, 0x03) := by decide

/-- V96: the second key before one boundary overwrites the first. -/
theorem test_two_keys :
    after (step { placed 0 [0x00] 0 0 with inputs := [[.key 0x41, .key 0x42]] })
      (fun t => (t.read 0xF4, t.is)) = some (0x42, 0x02) := by decide

/-- V92: line 0 before line 2. -/
theorem test_poll_priority :
    after (step ({ placed 0 [0x00] 0 0 with is := 0x05 }.setReg .r5 0x05)) (fun t => (t.is, t.ie)) =
      some (0x04, false) := by decide

/-- P4, the entry: the timer event at the boundary of the CMP at 0x18. -/
theorem test_entry :
    after (step
      { State.reset with
        pc := 0x18, tev := true, regs := ⟨0x20, 0xE0, 0, 0, 0x15, 1, 0, 0xF3⟩
        mem := [(0x18, 0xA7), (0x19, 0x02), (0x1A, 0x03), (0xF8, 0x20)]
        inputs := [[]] })
      (fun t => ((List.range 10).map (fun k => t.read (BitVec.ofNat 8 (0xE9 + k))), t.sp, t.pc)) =
      some ([0xEA, 0x00, 0x01, 0x15, 0x00, 0x00, 0xE0, 0x20, 0x01, 0x1B], 0xE9, 0x20) := by decide

/-- V95, second step: no room for the frame. -/
theorem test_entry_overflow :
    after (step { (placed 3 [0x82, 0x05, 0x01] 0 0).setSp 0x0A with plim := 9, tev := true })
      (fun t => (record t, t.pc, t.is, t.ie, t.sp)) =
      some ((.stackOverflow, 0x06, 0x00, .entry), 0x06, 0x01, true, 0x0A) := by decide

/-! ### The hypotheses of the statements can be met -/

/-- A state away from reset that meets the invariant: the program `65 00` (INC R0) at 0x10. -/
def sample : State :=
  { placed 0x10 [0x65, 0x00] 7 3 with
    fl := 0x04, is := 0x84, ie := false, plim := 0x20, kbyte := 0x41, out := [.num (-8)] }

theorem witness_invariant : sample.Inv ∧ ∃ t, step sample = .next t :=
  ⟨⟨by decide, by decide, by decide, Nat.succ_pos _, by decide⟩, _, rfl⟩

theorem witness_load :
    (List.replicate 256 (0xAA : Byte)).length ≤ 256 ∧
    256 < (List.replicate 257 (0xAA : Byte)).length :=
  ⟨Nat.le_of_eq List.length_replicate, by rw [List.length_replicate]; decide⟩

theorem witness_decode :
    decode 0x00 0x55 0x66 = .ok .nop ∧ decode 0x45 0x07 0x66 = .ok (.push .r7) ∧
    decode 0x82 0x07 0x66 = .ok (.ldi .r7 0x66) := ⟨rfl, rfl, rfl⟩

/-- FetchReadsAtWrappingAddresses and StepRunsTheInstructionAtPc, at the wrap of addresses. -/
theorem witness_step_runs :
    ∃ (s : State) (i : Instr), s.run = .running ∧ s.pc = 0xFF ∧ (encode i).length = 3 ∧
      ∀ k, k < (encode i).length →
        s.read (BitVec.ofNat 8 ((s.pc.toNat + k) % 256)) = (encode i).getD k 0 :=
  ⟨{ placed 0xFF [0x82] 0 0 with mem := [(0, 0x03), (1, 0x44), (0xFF, 0x82)] }, .ldi .r3 0x44,
    rfl, rfl, rfl, by decide⟩

theorem witness_memory_write :
    sample.memOk ∧ (0xF3 : Byte) ≠ 0xF4 ∧ (0xF5 : Byte) ≠ 0xF4 := by decide

theorem witness_run_states :
    sample.run = .running ∧ { sample with run := .halted }.run = .halted ∧
    { sample with run := .faulted }.run = .faulted := ⟨rfl, rfl, rfl⟩

theorem witness_unlisted_opcode :
    ∀ op ∈ ([0x02, 0xA5, 0xC0, 0xFF] : List Byte),
      (placed 0 [op] 0 0).run = .running ∧ (placed 0 [op] 0 0).read 0 = op ∧ op ∉ recognisedOpcodes := by
  decide

theorem witness_bad_register_byte :
    (∀ op ∈ ([0x45, 0x82, 0xA0] : List Byte),
      let s := placed 0 [op, 0x08] 0 0
      s.run = .running ∧ s.read s.pc ∈ opcodesR ++ opcodesRI ++ opcodesRR ∧
        7 < (s.read (s.pc + 1)).toNat) ∧
    (let s := placed 0 [0x83, 0x07, 0x08] 0 0
     s.run = .running ∧ s.read s.pc ∈ opcodesRR ∧ (s.read (s.pc + 1)).toNat ≤ 7 ∧
        7 < (s.read (s.pc + 2)).toNat) := by decide

/-- The cases of SpellsR and SpellsRR, at the boundary. -/
theorem witness_spells :
    (0x07 : Byte) = regByte .r7 ∧ 7 < (0x08 : Byte).toNat ∧ (0x07 : Byte).toNat ≤ 7 := by decide

theorem witness_divisor : (placed 0 [] 9 0).reg .r1 = 0 ∧ (placed 0 [] 9 1).reg .r1 ≠ 0 := by decide

theorem witness_shift_count : 8 ≤ ((placed 0 [] 1 8).reg .r1).toNat := by decide

theorem witness_compare :
    ((placed 0 [] 4 4).reg .r0).toNat = ((placed 0 [] 4 4).reg .r1).toNat ∧
    ((placed 0 [] 5 4).reg .r0).toNat > ((placed 0 [] 5 4).reg .r1).toNat ∧
    ((placed 0 [] 3 4).reg .r0).toNat < ((placed 0 [] 3 4).reg .r1).toNat := by decide

theorem witness_alu_next :
    ∃ t u, exec (.div .r0 .r1) (placed 0 [] 9 0) = .next t ∧ t.run = .faulted ∧
      exec (.add .r0 .r1) (placed 0 [] 9 0) = .next u ∧ u.run = .running :=
  ⟨_, _, rfl, rfl, rfl, rfl⟩

/-- PUSH, CALL and a PUSH and POP with room: the slot at PLIM and the slot at 0xF2. -/
theorem witness_push_room :
    ∀ sp ∈ ([0x21, 0xF3] : List Byte),
      (sample.setSp sp).memOk ∧ (sample.setSp sp).plim + 1 ≤ (sample.setSp sp).sp.toNat ∧
      (sample.setSp sp).sp.toNat ≤ 0xF3 := by decide

/-- POP and RET: the slot at PLIM and the slot at 0xF2. -/
theorem witness_pop_room :
    ∀ sp ∈ ([0x20, 0xF2] : List Byte),
      (sample.setSp sp).plim ≤ (sample.setSp sp).sp.toNat ∧ (sample.setSp sp).sp.toNat ≤ 0xF2 := by
  decide

theorem witness_push_faults :
    (sample.setSp 0x20).sp.toNat < sample.plim + 1 ∧
    (sample.plim + 1 ≤ (sample.setSp 0xF4).sp.toNat ∧ 0xF3 < (sample.setSp 0xF4).sp.toNat) := by
  decide

theorem witness_pop_faults :
    0xF2 < (sample.setSp 0xF3).sp.toNat ∧
    ((sample.setSp 0x1F).sp.toNat ≤ 0xF2 ∧ (sample.setSp 0x1F).sp.toNat < sample.plim) := by decide

theorem witness_jumps :
    ((.jle .r0, true) : Instr × Bool) ∈
      [(.jmp .r0, true), (.jeq .r0, sample.fl.getLsbD 0), (.jne .r0, !sample.fl.getLsbD 0),
       (.jgt .r0, sample.fl.getLsbD 1), (.jlt .r0, sample.fl.getLsbD 2),
       (.jle .r0, sample.fl.getLsbD 2 || sample.fl.getLsbD 0),
       (.jge .r0, sample.fl.getLsbD 1 || sample.fl.getLsbD 0)] := by decide

theorem witness_store : sample.memOk ∧ sample.ea .r0 ≠ 0xF4 ∧ (sample.setReg .r0 0xF4).ea .r0 = 0xF4 := by
  decide

/-- A store into the next instruction's first byte, and one that wraps past 0xFF. -/
theorem witness_store_next_fetch :
    ((sample.setReg .r0 0x13).memOk ∧ (sample.setReg .r0 0x13).ea .r0 ≠ 0xF4 ∧
      ((sample.setReg .r0 0x13).ea .r0).toNat = (sample.pc.toNat + 3 + 0) % 256) ∧
    (((sample.setReg .r0 0x00).jump 0xFC).ea .r0).toNat =
      (((sample.setReg .r0 0x00).jump 0xFC).pc.toNat + 3 + 1) % 256 := by decide

theorem witness_halt : (placed 0x50 [0x01] 0 0).run = .running ∧ (placed 0x50 [0x01] 0 0).read 0x50 = 0x01 := by
  decide

theorem witness_int : ((placed 0 [] 7 0).reg .r0).toNat ≤ 7 ∧ 7 < ((placed 0 [] 8 0).reg .r0).toNat := by decide

/-- IRET with its frame at the bottom of the stack region and at its top. -/
theorem witness_iret :
    (let s := (sample.setSp 0x20).write 0x20 0x20
     s.read s.sp = 0x20 ∧ s.plim ≤ s.sp.toNat ∧ s.sp.toNat ≤ 0xF2 ∧
       s.plim ≤ (0x20 : Byte).toNat ∧ (0x20 : Byte).toNat + 8 ≤ 0xF2) ∧
    (let s := (sample.setSp 0xE9).write 0xE9 0xEA
     s.read s.sp = 0xEA ∧ s.plim ≤ s.sp.toNat ∧ s.sp.toNat ≤ 0xF2 ∧
       s.plim ≤ (0xEA : Byte).toNat ∧ (0xEA : Byte).toNat + 8 ≤ 0xF2) := by decide

theorem witness_iret_faults :
    0xF2 < (sample.setSp 0xF3).sp.toNat ∧
    (let s := (sample.setSp 0xF2).write 0xF2 0xEB
     s.plim ≤ s.sp.toNat ∧ s.sp.toNat ≤ 0xF2 ∧ 0xF2 < (s.read s.sp).toNat + 8) ∧
    ((sample.setSp 0x1F).sp.toNat ≤ 0xF2 ∧ (sample.setSp 0x1F).sp.toNat < sample.plim) ∧
    (let s := (sample.setSp 0xF2).write 0xF2 0x1F
     s.plim ≤ s.sp.toNat ∧ s.sp.toNat ≤ 0xF2 ∧ (s.read s.sp).toNat + 8 ≤ 0xF2 ∧
       (s.read s.sp).toNat < s.plim) := by decide

/-- Interrupt entry with exactly enough room, and with all of it; lines 0 and 7. -/
theorem witness_entry_room :
    ∀ sp ∈ ([0x2A, 0xF3] : List Byte),
      0 < 8 ∧ 7 < 8 ∧ (sample.setSp sp).memOk ∧ (sample.setSp sp).flOk ∧
      (sample.setSp sp).plim + 10 ≤ (sample.setSp sp).sp.toNat ∧
      (sample.setSp sp).sp.toNat ≤ 0xF3 := by decide

theorem witness_entry_faults :
    (sample.setSp 0x29).sp.toNat < sample.plim + 10 ∧
    (sample.plim + 10 ≤ (sample.setSp 0xF4).sp.toNat ∧ 0xF3 < (sample.setSp 0xF4).sp.toNat) := by decide

/-- The poll's three cases: servicing disabled; nothing pending and unmasked; line 7 alone unmasked
while line 2 is pending and masked. -/
theorem witness_poll :
    sample.ie = false ∧
    (∀ k, k < 8 → ¬ (sample.is.getLsbD k = true ∧ (sample.reg .r5).getLsbD k = true)) ∧
    (let s := { sample with ie := true }.setReg .r5 0x80
     7 < 8 ∧ s.ie = true ∧ s.is.getLsbD 7 = true ∧ (s.reg .r5).getLsbD 7 = true ∧
       ∀ k, k < 7 → ¬ (s.is.getLsbD k = true ∧ (s.reg .r5).getLsbD k = true)) := by decide

theorem witness_boundary :
    { sample with run := .halted }.run ≠ .running ∧
    (let s := { sample with kev := true, tev := true }
     s.run = .running ∧ s.memOk) := by decide

/-- InputsReachTheLatches: inputs settled, keys and ticks mixed with a tick after the last key; no key
among them; and none settled. -/
theorem witness_inputs :
    sample.run = .running ∧ sample.timerOk ∧ { sample with inputs := [] }.inputs = [] ∧
    { sample with inputs := [[.key 1, .tick, .key 2, .tick], []] }.inputs =
      [.key 1, .tick, .key 2, .tick] :: [[]] ∧
    lastKey [.key 1, .tick, .key 2, .tick] = some 2 ∧ lastKey [.tick, .tick] = none :=
  ⟨rfl, Nat.succ_pos _, rfl, rfl, rfl, rfl⟩

/-- InterruptReturnRestoresContext: the handler's state right after the entry. -/
theorem witness_interrupt_return :
    ∃ s u : State, s.memOk ∧ s.flOk ∧ s.plim + 10 ≤ s.sp.toNat ∧ s.sp.toNat ≤ 0xF3 ∧
      u.plim = s.plim ∧ u.sp = (s.enter 2).sp ∧ u.pc ≠ s.pc ∧ u.reg .r0 ≠ s.reg .r0 ∧
      ∀ k, 1 ≤ k → k ≤ 10 →
        u.read (s.sp - BitVec.ofNat 8 k) = (s.enter 2).read (s.sp - BitVec.ofNat 8 k) :=
  ⟨sample, (sample.enter 2).setReg .r0 0x55, by decide, by decide, by decide, by decide, rfl,
    by decide, by decide, by decide, fun _ _ _ => rfl⟩

/-- A step that leaves line 2 pending, and one that enters it. -/
theorem witness_pending_line :
    sample.is.getLsbD 2 = true ∧ (∃ t, step sample = .next t ∧ t.is.getLsbD 2 = true) ∧
    ∃ t, step ({ sample with ie := true }.setReg .r5 0x04) = .next t ∧ t.is.getLsbD 2 = false :=
  ⟨by decide, ⟨_, rfl, by decide⟩, _, rfl, by decide⟩

/-- IE rises by IRET and falls by an entry. -/
theorem witness_ie :
    (∃ t, step (frameState 0x01) = .next t ∧ (frameState 0x01).ie = false ∧ t.ie = true) ∧
    ∃ t, step ({ sample with ie := true }.setReg .r5 0x04) = .next t ∧ t.ie = false :=
  ⟨⟨_, rfl, rfl, by decide⟩, _, rfl, by decide⟩

theorem witness_handler :
    sample.run = .running ∧ sample.ie = false ∧ sample.fetch = .ok (.inc .r0) ∧
    ∃ u, exec (.inc .r0) sample.arrive = .next u := ⟨rfl, rfl, rfl, _, rfl⟩

theorem witness_flags_change :
    ∃ t, step ((placed 0 [0xA7, 0x00, 0x01] 4 4).writeFl 0x04) = .next t ∧ t.fl ≠ 0x04 :=
  ⟨_, rfl, by decide⟩

/-- A step that changes the keyboard register, and one that does not. -/
theorem witness_keyboard :
    sample.memOk ∧ (∃ t, step sample = .next t ∧ t.read 0xF4 = sample.read 0xF4) ∧
    ∃ t, step { sample with inputs := [[.key 0x42]] } = .next t ∧ t.read 0xF4 = 0x42 :=
  ⟨by decide, ⟨_, rfl, by decide⟩, _, rfl, by decide⟩

/-- A store into the program region, and one into the vector table. -/
theorem witness_store_outside_stack :
    (∃ t, step { placed 0 [0x84, 0x01, 0x00] 0x20 0x05 with plim := 6 } = .next t ∧
      (0x05 : Byte).toNat < 6 ∧ t.read 0x05 ≠ 0) ∧
    ∃ t, step (placed 0 [0x84, 0x01, 0x00] 0x20 0xF8) = .next t ∧ 0xF2 < (0xF8 : Byte).toNat ∧
      t.read 0xF8 ≠ 0 := ⟨⟨_, rfl, by decide, by decide⟩, _, rfl, by decide, by decide⟩

/-- A fault of an instruction, and a fault of an interrupt entry. -/
theorem witness_faults :
    (∃ t, step (placed 0 [0xC0] 0 0) = .next t ∧ t.run = .faulted ∧ t.fsrc = .instruction) ∧
    ∃ t, step { (placed 3 [0x82, 0x05, 0x01] 0 0).setSp 0x0A with plim := 9, tev := true } = .next t ∧
      t.run = .faulted ∧ t.fsrc = .entry :=
  ⟨⟨_, rfl, rfl, rfl⟩, _, rfl, by decide, by decide⟩

theorem witness_exec_next :
    ∃ t, sample.run = .running ∧ exec (.inc .r0) sample = .next t ∧ t.run ≠ .faulted :=
  ⟨_, rfl, rfl, by decide⟩

end Sys2Proof.Tests
end

section
/-! PROOFS. The frame of a memory write made by an instruction (20_memory.md R53). -/

namespace Sys2Proof.Machine

/-- The byte written is the byte read back, away from the keyboard register. -/
theorem State.read_write_self {s : State} (hm : s.memOk) {a : Byte} (ha : a ≠ keyboardAddr)
    (v : Byte) : (s.write a v).read a = v := by
  rw [State.read_write hm, if_pos ⟨rfl, ha⟩]

/-- A write keeps everything but the byte at its address; this needs neither the canonical form of
memory nor an address other than the keyboard register's. -/
theorem State.write_keptBut (s : State) (a v : Byte) : KeptBut [] [a] s (s.write a v) := by
  have regs : RegsKept [] s (s.write a v) := fun r _ => State.write_reg s a v r
  have mem : MemKept [a] s (s.write a v) := fun b hb =>
    State.read_write_of_ne s v (List.ne_of_not_mem_cons hb)
  have interrupts : InterruptsKept s (s.write a v) := by simp [InterruptsKept]
  have engine : EngineKept s (s.write a v) := by simp [EngineKept]
  have devices : DevicesKept s (s.write a v) := by simp [DevicesKept]
  exact ⟨⟨regs, mem, interrupts, engine, devices⟩, State.write_fl s a v, State.write_out s a v⟩

/-- Settles O9: the byte is read back by `State.read_write_self`, and the rest of the state is kept
by `State.write_keptBut`. -/
theorem memoryWriteSetsOneByte : Obligations.MemoryWriteSetsOneByte := by
  intro s a v hm ha
  exact ⟨State.read_write_self hm ha v, State.write_keptBut s a v, State.write_pc s a v⟩

end Sys2Proof.Machine
end

section
/-! PROOFS. What the encoder writes, format by format, and that the decoder reads no more than that
(30_encoding.md R83, R84). -/

namespace Sys2Proof

/-- The bytes `ws` are those of `i` in the format the opcode map gives the opcode byte
(30_encoding.md R83, R88). -/
inductive FormatBytes : Instr → List Byte → Prop
  | z {op : Byte} {i : Instr} (row : opShape op = some (.z i)) : FormatBytes i [op]
  | r {op : Byte} {mk : Reg → Instr} (row : opShape op = some (.r mk)) (a : Reg) :
      FormatBytes (mk a) [op, regByte a]
  | ri {op : Byte} {mk : Reg → Byte → Instr} (row : opShape op = some (.ri mk)) (a : Reg)
      (imm : Byte) : FormatBytes (mk a imm) [op, regByte a, imm]
  | rr {op : Byte} {mk : Reg → Reg → Instr} (row : opShape op = some (.rr mk)) (a b : Reg) :
      FormatBytes (mk a b) [op, regByte a, regByte b]

/-- The encoder and the opcode map, written apart, give each instruction the same opcode and format. -/
theorem encode_formatBytes (i : Instr) : FormatBytes i (encode i) := by
  cases i with
  | nop | hlt | ret | iret => exact .z rfl
  | push a | pop a | prn a | pra a | call a | int a | jmp a | jeq a | jne a | jgt a | jlt a | jle a
  | jge a | inc a | dec a | not a => exact .r rfl a
  | ldi a imm => exact .ri rfl a imm
  | ld a b | st a b | add a b | sub a b | mul a b | div a b | mod a b | cmp a b | and a b | or a b
  | xor a b | shl a b | shr a b => exact .rr rfl a b

theorem decode_z_ok {op : Byte} {i : Instr} (row : opShape op = some (.z i)) (b1 b2 : Byte) :
    decode op b1 b2 = .ok i := by
  unfold decode
  rw [row]

/-- Decoding depends on an instruction's own bytes only: bytes `f 0`, `f 1`, `f 2` that agree with
them as far as they go decode to that instruction. -/
theorem FormatBytes.decode_eq_ok {i : Instr} {ws : List Byte} (h : FormatBytes i ws) {f : Nat → Byte}
    (agree : ∀ k, k < ws.length → f k = ws.getD k 0) : decode (f 0) (f 1) (f 2) = .ok i := by
  cases h with
  | @z op _ row =>
    have opcode : f 0 = op := agree 0 (by simp)
    rw [opcode]
    exact decode_z_ok row _ _
  | @r op _ row a =>
    have opcode : f 0 = op := agree 0 (by simp)
    have operand : f 1 = regByte a := agree 1 (by simp)
    rw [opcode, operand]
    exact decode_r_ok row a _
  | @ri op _ row a imm =>
    have opcode : f 0 = op := agree 0 (by simp)
    have operand1 : f 1 = regByte a := agree 1 (by simp)
    have operand2 : f 2 = imm := agree 2 (by simp)
    rw [opcode, operand1, operand2]
    exact decode_ri_ok row a imm
  | @rr op _ row a b =>
    have opcode : f 0 = op := agree 0 (by simp)
    have operand1 : f 1 = regByte a := agree 1 (by simp)
    have operand2 : f 2 = regByte b := agree 2 (by simp)
    rw [opcode, operand1, operand2]
    exact decode_rr_ok row a b

end Sys2Proof

namespace Sys2Proof.Machine

/-- The addresses of the bytes fetched, as R84 of 30_encoding.md writes them. -/
theorem State.fetchByte_eq_read (s : State) (k : Nat) :
    s.fetchByte k = s.read (BitVec.ofNat 8 ((s.pc.toNat + k) % 256)) := by
  rw [← State.pcAfter_toNat, BitVec.ofNat_toNat, BitVec.setWidth_eq, State.fetchByte]

/-- Settles O10: by `State.fetchByte_eq_read` the bytes fetched are those of `encode i`, and the
decoder looks no further than them (`FormatBytes.decode_eq_ok`). -/
theorem fetchReadsAtWrappingAddresses : Obligations.FetchReadsAtWrappingAddresses := by
  intro s i bytes
  have agree : ∀ k, k < (encode i).length → s.fetchByte k = (encode i).getD k 0 := fun k hk =>
    (s.fetchByte_eq_read k).trans (bytes k hk)
  exact (encode_formatBytes i).decode_eq_ok agree

end Sys2Proof.Machine
end

section
/-! PROOFS. An opcode whose row of the map has format R or RR spells that row's instruction
(30_encoding.md R83, R85). -/

namespace Sys2Proof.Machine

theorem regByte_toNat_le (r : Reg) : (regByte r).toNat ≤ 7 := by cases r <;> decide

theorem spellsR_of_row {op : Byte} {mk : Reg → Instr} (row : opShape op = some (.r mk))
    (bytes : ∀ r, encode (mk r) = [op, regByte r]) : SpellsR op mk := by
  intro b1 b2
  refine ⟨?_, fun high => ?_⟩
  · rintro r rfl
    exact ⟨decode_r_ok row r b2, bytes r⟩
  · obtain ⟨r, rfl, -⟩ | ⟨-, rejected⟩ := decode_r row b1 b2
    · exact absurd (regByte_toNat_le r) (by omega)
    · exact rejected

theorem spellsRR_of_row {op : Byte} {mk : Reg → Reg → Instr} (row : opShape op = some (.rr mk))
    (bytes : ∀ a b, encode (mk a b) = [op, regByte a, regByte b]) : SpellsRR op mk := by
  intro b1 b2
  refine ⟨?_, fun high1 => ?_, fun low1 high2 => ?_⟩
  · rintro a b rfl rfl
    exact ⟨decode_rr_ok row a b, bytes a b⟩
  · obtain ⟨a, b, rfl, -⟩ | ⟨-, rejected⟩ | ⟨low1, -⟩ := decode_rr row b1 b2
    · exact absurd (regByte_toNat_le a) (by omega)
    · exact rejected
    · omega
  · obtain ⟨a, b, -, rfl, -⟩ | ⟨high1, -⟩ | ⟨-, -, rejected⟩ := decode_rr row b1 b2
    · exact absurd (regByte_toNat_le b) (by omega)
    · omega
    · exact rejected

end Sys2Proof.Machine
end

section
/-! PROOFS. The two things an ALU instruction other than CMP can do: write one register and pass its
own bytes, or take DivisionByZero (40_alu.md, preamble and R123, R124). -/

namespace Sys2Proof.Machine

theorem State.advance_pcMoved (s : State) (n : Nat) : PcMoved n s (s.advance n) := s.pcAfter_toNat n

/-- Writing one register and moving the PC keeps everything else. -/
theorem State.advance_setReg_keptBut (s : State) (n : Nat) (r : Reg) (v : Byte) :
    KeptBut [r] [] s ((s.advance n).setReg r v) := by
  have regs : RegsKept [r] s ((s.advance n).setReg r v) := fun _ hq =>
    State.reg_setReg_of_ne _ v (List.ne_of_not_mem_cons hq)
  have mem : MemKept [] s ((s.advance n).setReg r v) := fun _ _ => rfl
  have interrupts : InterruptsKept s ((s.advance n).setReg r v) := by simp [InterruptsKept]
  have engine : EngineKept s ((s.advance n).setReg r v) := by simp [EngineKept]
  have devices : DevicesKept s ((s.advance n).setReg r v) := by simp [DevicesKept]
  exact ⟨⟨regs, mem, interrupts, engine, devices⟩, rfl, rfl⟩

/-- The outcome of an instruction that writes `v` to register `r` and passes its own `n` bytes. What
is claimed of the value written is left open, as `Result`. -/
theorem writesRegister {i : Instr} {s : State} {n : Nat} {r : Reg} {v : Byte} {Result : State → Prop}
    (arm : exec i s = .next ((s.advance n).setReg r v))
    (result : Result ((s.advance n).setReg r v)) :
    ∃ t, exec i s = .next t ∧ Result t ∧ PcMoved n s t ∧ KeptBut [r] [] s t :=
  ⟨_, arm, result, s.advance_pcMoved n, s.advance_setReg_keptBut n r v⟩

theorem State.raise_faultTaken (s : State) (kind : FaultKind) (addr byte : Byte) (src : FaultSource) :
    FaultTaken kind addr byte src s (s.raise kind addr byte src) := by
  have regs : RegsKept [] s (s.raise kind addr byte src) := fun _ _ => rfl
  have mem : MemKept [] s (s.raise kind addr byte src) := fun _ _ => rfl
  have interrupts : InterruptsKept s (s.raise kind addr byte src) := by simp [InterruptsKept]
  have devices : DevicesKept s (s.raise kind addr byte src) := by simp [DevicesKept]
  exact ⟨rfl, rfl, rfl, rfl, rfl, regs, mem, rfl, rfl, interrupts, devices, rfl⟩

theorem State.divide_of_zero {s : State} {b : Reg} (hb : s.reg b = 0) (op : Byte)
    (f : Byte → Byte → Byte) (a : Reg) :
    s.divide op f a b = s.raise .divisionByZero s.pc op .instruction := if_pos hb

theorem State.divide_of_ne_zero {s : State} {b : Reg} (hb : s.reg b ≠ 0) (op : Byte)
    (f : Byte → Byte → Byte) (a : Reg) : s.divide op f a b = s.binary f a b := if_neg hb

theorem divide_zero_faults {i : Instr} {s : State} {op : Byte} {f : Byte → Byte → Byte} {a b : Reg}
    (arm : exec i s = .next (s.divide op f a b)) (hb : s.reg b = 0) :
    ∃ t, exec i s = .next t ∧ FaultTaken .divisionByZero s.pc op .instruction s t := by
  rw [State.divide_of_zero hb] at arm
  exact ⟨_, arm, s.raise_faultTaken _ _ _ _⟩

theorem divide_ne_zero_writesRegister {i : Instr} {s : State} {op : Byte} {f : Byte → Byte → Byte}
    {a b : Reg} {Result : State → Prop} (arm : exec i s = .next (s.divide op f a b))
    (hb : s.reg b ≠ 0) (result : Result (s.binary f a b)) :
    ∃ t, exec i s = .next t ∧ Result t ∧ PcMoved 3 s t ∧ KeptBut [a] [] s t := by
  rw [State.divide_of_ne_zero hb] at arm
  exact writesRegister arm result

end Sys2Proof.Machine
end

section
/-! PROOFS. The arithmetic and bitwise ALU instructions (40_alu.md R120 to R130): by the lemmas above
what is left of each is its row of the opcode map and the value it writes. -/

namespace Sys2Proof.Machine

theorem State.binary_reg_self (s : State) (f : Byte → Byte → Byte) (a b : Reg) :
    (s.binary f a b).reg a = f (s.reg a) (s.reg b) := State.reg_setReg_self _ a _

/-- Settles O18: each writes one register (`writesRegister`), and the wrapping operations of `BitVec`
are those modulo 256. -/
theorem addSubMulResults : Obligations.AddSubMulResults := by
  refine ⟨spellsRR_of_row rfl fun _ _ => rfl, spellsRR_of_row rfl fun _ _ => rfl,
    spellsRR_of_row rfl fun _ _ => rfl, fun a b s => ⟨?add, ?sub, ?mul⟩⟩
  case add =>
    refine writesRegister rfl ?_
    rw [State.reg_setReg_self, BitVec.toNat_add]
  case sub =>
    refine writesRegister rfl ?_
    rw [State.reg_setReg_self]
    bv_omega
  case mul =>
    refine writesRegister rfl ?_
    rw [State.reg_setReg_self, BitVec.toNat_mul]

/-- Settles O19, by the two cases of the divisor: with 0 the only effect is the fault
(`divide_zero_faults`), and else one register is written (`divide_ne_zero_writesRegister`). -/
theorem divModResults : Obligations.DivModResults := by
  refine ⟨spellsRR_of_row rfl fun _ _ => rfl, spellsRR_of_row rfl fun _ _ => rfl,
    fun a b s => ⟨fun zero => ?_, fun nonzero => ⟨?div, ?mod⟩⟩⟩
  · exact ⟨divide_zero_faults rfl zero, divide_zero_faults rfl zero⟩
  case div =>
    refine divide_ne_zero_writesRegister rfl nonzero ?_
    rw [State.binary_reg_self, BitVec.toNat_udiv]
  case mod =>
    refine divide_ne_zero_writesRegister rfl nonzero ?_
    rw [State.binary_reg_self, BitVec.toNat_umod]

/-- Settles O20: each writes its own operand register (`writesRegister`); subtracting 1 is adding 255
modulo 256, and the complement is the distance from 255. -/
theorem incDecNotResults : Obligations.IncDecNotResults := by
  refine ⟨spellsR_of_row rfl fun _ => rfl, spellsR_of_row rfl fun _ => rfl,
    spellsR_of_row rfl fun _ => rfl, fun r s => ⟨?inc, ?dec, ?not⟩⟩
  case inc =>
    refine writesRegister rfl ?_
    rw [State.reg_setReg_self]
    bv_omega
  case dec =>
    refine writesRegister rfl ?_
    rw [State.reg_setReg_self]
    bv_omega
  case not =>
    refine writesRegister rfl ?_
    rw [State.reg_setReg_self, BitVec.toNat_not]

/-- Settles O21: each writes one register (`writesRegister`), bit by bit. -/
theorem andOrXorResults : Obligations.AndOrXorResults := by
  refine ⟨spellsRR_of_row rfl fun _ _ => rfl, spellsRR_of_row rfl fun _ _ => rfl,
    spellsRR_of_row rfl fun _ _ => rfl, fun a b s => ⟨?and, ?or, ?xor⟩⟩
  case and =>
    refine writesRegister rfl fun k => ?_
    rw [State.reg_setReg_self, BitVec.getLsbD_and]
  case or =>
    refine writesRegister rfl fun k => ?_
    rw [State.reg_setReg_self, BitVec.getLsbD_or]
  case xor =>
    refine writesRegister rfl fun k => ?_
    rw [State.reg_setReg_self, BitVec.getLsbD_xor]

end Sys2Proof.Machine
end

section
/-! PROOFS. The encoder and the decoder are inverse to each other, and the opcode's class bits
(30_encoding.md sections 1, 3 and 6). -/

namespace Sys2Proof

/-- Settles O6: the instruction's own bytes stand first, and the decoder looks no further than them
(`FormatBytes.decode_eq_ok`). -/
theorem decodeOfEncodeIsTheInstruction : Obligations.DecodeOfEncodeIsTheInstruction := by
  intro i rest
  have agree : ∀ k, k < (encode i).length → (encode i ++ rest).getD k 0 = (encode i).getD k 0 :=
    fun k hk => List.getD_append _ _ _ k hk
  exact (encode_formatBytes i).decode_eq_ok agree

theorem mem_opRows_of_opShape {op : Byte} {shape : Shape} (h : opShape op = some shape) :
    ⟨op, shape⟩ ∈ opRows := by
  obtain ⟨row, found, rfl⟩ := Option.map_eq_some_iff.1 h
  have opcode : row.opcode = op := by simpa using List.find?_some found
  exact opcode ▸ List.mem_of_find?_eq_some found

/-- A row's opcode byte declares the operand count of its format, and the encoder gives the row's
instructions that opcode byte and operands (30_encoding.md R81, R83, R92). -/
def OpRow.Encodes (row : OpRow) : Prop :=
  match row.shape with
  | .z i => row.opcode.toNat / 64 = 0 ∧ encode i = [row.opcode]
  | .r f => row.opcode.toNat / 64 = 1 ∧ ∀ a, encode (f a) = [row.opcode, regByte a]
  | .ri f => row.opcode.toNat / 64 = 2 ∧ ∀ a imm, encode (f a imm) = [row.opcode, regByte a, imm]
  | .rr f => row.opcode.toNat / 64 = 2 ∧ ∀ a b, encode (f a b) = [row.opcode, regByte a, regByte b]

theorem opRowsZ_encodes : ∀ row ∈ opRowsZ, row.Encodes := by
  intro row h
  fin_cases h <;> exact ⟨rfl, rfl⟩

theorem opRowsR_encodes : ∀ row ∈ opRowsR, row.Encodes := by
  intro row h
  fin_cases h <;> exact ⟨rfl, fun _ => rfl⟩

theorem opRowsRR_encodes : ∀ row ∈ opRowsRR, row.Encodes := by
  intro row h
  fin_cases h <;> exact ⟨rfl, fun _ _ => rfl⟩

theorem opRows_encodes : ∀ row ∈ opRows, row.Encodes := by
  intro row h
  rcases List.mem_append.1 h with h | h
  · rcases List.mem_append.1 h with h | h
    · exact opRowsZ_encodes row h
    · exact opRowsR_encodes row h
  · exact opRowsRR_encodes row h

/-- Settles O7, by the format of the opcode's row: what the row's decoding accepts is what the encoder
writes for it (`opRows_encodes`). -/
theorem encodeOfDecodeIsTheBytes : Obligations.EncodeOfDecodeIsTheBytes := by
  intro op b1 b2 i decoded
  cases row : opShape op with
  | none => simp [decode, row] at decoded
  | some shape =>
    have encodes := opRows_encodes _ (mem_opRows_of_opShape row)
    cases shape with
    | z j =>
      obtain ⟨count, bytes⟩ := encodes
      rw [decode_z_ok row] at decoded
      cases decoded
      rw [bytes, count]
      rfl
    | r mk =>
      obtain ⟨count, bytes⟩ := encodes
      obtain ⟨a, rfl, accepted⟩ | ⟨-, rejected⟩ := decode_r row b1 b2
      · cases accepted.symm.trans decoded
        rw [bytes, count]
        rfl
      · cases rejected.symm.trans decoded
    | ri mk =>
      obtain ⟨count, bytes⟩ := encodes
      obtain ⟨a, rfl, accepted⟩ | ⟨-, rejected⟩ := decode_ri row b1 b2
      · cases accepted.symm.trans decoded
        rw [bytes, count]
        rfl
      · cases rejected.symm.trans decoded
    | rr mk =>
      obtain ⟨count, bytes⟩ := encodes
      obtain ⟨a, b, rfl, rfl, accepted⟩ | ⟨-, rejected⟩ | ⟨-, -, rejected⟩ := decode_rr row b1 b2
      · cases accepted.symm.trans decoded
        rw [bytes, count]
        rfl
      · cases rejected.symm.trans decoded
      · cases rejected.symm.trans decoded

/-- Settles O8, by the three classes of 30_encoding.md R103: the ALU instructions have bit 5 alone,
the control-flow instructions bit 4 alone, and the others neither. -/
theorem opcodeClassBits : Obligations.OpcodeClassBits := by
  intro i
  cases i with
  | add a b | sub a b | mul a b | div a b | mod a b | cmp a b | and a b | or a b | xor a b
  | shl a b | shr a b => exact ⟨_, rfl, iff_of_true rfl ⟨a, b, by simp⟩, by simp⟩
  | inc a | dec a | not a => exact ⟨_, rfl, iff_of_true rfl ⟨a, a, by simp⟩, by simp⟩
  | call r | int r | jmp r | jeq r | jne r | jgt r | jlt r | jle r | jge r =>
    exact ⟨_, rfl, by simp, iff_of_true rfl ⟨r, by simp⟩⟩
  | ret | iret => exact ⟨_, rfl, by simp, iff_of_true rfl ⟨.r0, by simp⟩⟩
  | nop | hlt | push r | pop r | prn r | pra r | ldi r imm | ld a b | st a b =>
    exact ⟨_, rfl, by simp, by simp⟩

/-- Settles O5: each of the 34 words is decoded. -/
theorem specWordsDecode : Obligations.SpecWordsDecode :=
  ⟨rfl, rfl, rfl, rfl, rfl, rfl, rfl, rfl, rfl, rfl, rfl, rfl, rfl, rfl, rfl, rfl, rfl, rfl, rfl, rfl,
    rfl, rfl, rfl, rfl, rfl, rfl, rfl, rfl, rfl, rfl, rfl, rfl, rfl, rfl⟩

end Sys2Proof
end

section
/-! PROOFS. The invariant after reset, after a load and over every step (10_state.md section 9). -/

namespace Sys2Proof.Machine

/-- Settles O1: memory is empty, the counters are 0 and no fault is recorded. -/
theorem resetMeetsInvariant : Obligations.ResetMeetsInvariant := by
  have record : State.reset.recordOk := ⟨fun _ => ⟨rfl, rfl, rfl, rfl⟩, nofun, nofun⟩
  exact ⟨rfl, rfl, Nat.zero_le _, Nat.succ_pos _, record⟩

/-- Settles O2: an accepted load is the reset state with the image copied over an empty memory
(`Memory.read_copyAt`). -/
theorem loadResetsAndCopiesImage : Obligations.LoadResetsAndCopiesImage := by
  intro s image
  refine ⟨fun fits => ?_, s.load_of_too_long⟩
  rw [State.load_of_fits s fits]
  refine ⟨rfl, ?regs, rfl, rfl, rfl, rfl, rfl, rfl, rfl, rfl, rfl, rfl, rfl, rfl, rfl, rfl, rfl, rfl,
    rfl, ?mem⟩
  case regs =>
    intro r hr
    cases r with
    | r7 => exact absurd rfl hr
    | r0 | r1 | r2 | r3 | r4 | r5 | r6 => rfl
  case mem =>
    intro a
    have copied := Memory.read_copyAt (m := []) (a := 0) (bs := image) rfl (by omega) a.toNat
    refine copied.trans ?_
    by_cases inside : a.toNat < image.length
    · rw [if_pos ⟨Nat.zero_le _, by omega⟩, Nat.sub_zero]
    · rw [if_neg (by omega), List.getD_eq_default _ _ (by omega)]
      rfl

/-- Settles O3: a load differs from reset, as far as the invariant goes, in memory and PLIM. -/
theorem loadMeetsInvariant : Obligations.LoadMeetsInvariant := by
  intro s image fits
  obtain ⟨-, fl, -, timer, record⟩ := resetMeetsInvariant
  rw [State.load_of_fits s fits]
  exact ⟨Memory.wf_copyAt rfl (by omega), fl, fits, timer, record⟩

theorem State.arrive_inv {s : State} (h : s.Inv) : s.arrive.Inv := by
  obtain ⟨mem, fl, plim, timer, record⟩ := h
  exact ⟨mem, fl, plim, State.arrive_timerOk timer, record⟩

theorem State.raise_inv {s : State} (h : s.Inv) {kind : FaultKind} {src : FaultSource}
    (raised : kind ≠ .none)
    (entry : src = .entry → kind = .stackOverflow ∨ kind = .stackUnderflow) (addr byte : Byte) :
    (s.raise kind addr byte src).Inv := by
  obtain ⟨mem, fl, plim, timer, -⟩ := h
  exact ⟨mem, fl, plim, timer, fun run => absurd rfl run, fun _ => raised, entry⟩

theorem Completed.memOk {i : Instr} {s t : State} (done : Completed i s t) (h : s.memOk) :
    t.memOk := by
  show Memory.wf t.mem = true
  rcases done.mem with e | ⟨a, v, e, -⟩ <;> rw [e]
  · exact h
  · exact State.write_memOk h a v

theorem Completed.flOk {i : Instr} {s t : State} (done : Completed i s t) (h : s.flOk) :
    t.flOk := by
  rcases done.fl with e | ⟨ok, -⟩
  · show t.fl &&& 0xF8 = 0
    rw [e]
    exact h
  · exact ok

theorem Completed.run_ne_faulted {i : Instr} {s t : State} (done : Completed i s t)
    (h : s.run ≠ .faulted) : t.run ≠ .faulted := by
  rcases done.run with e | ⟨-, e⟩ <;> rw [e]
  · exact h
  · decide

/-- An instruction that completes leaves the fault record as it was, which is clear. -/
theorem Completed.recordOk {i : Instr} {s t : State} (done : Completed i s t)
    (running : s.run ≠ .faulted) (h : s.recordOk) : t.recordOk := by
  obtain ⟨kind, addr, byte, src⟩ := done.record
  obtain ⟨clear, -, entry⟩ := h
  show (_ → _ ∧ _ ∧ _ ∧ _) ∧ (_ → _) ∧ (_ → _)
  rw [kind, addr, byte, src]
  exact ⟨fun _ => clear running, fun faulted => absurd faulted (done.run_ne_faulted running), entry⟩

theorem Completed.inv {i : Instr} {s t : State} (done : Completed i s t) (running : s.run ≠ .faulted)
    (h : s.Inv) : t.Inv := by
  obtain ⟨mem, fl, plim, timer, record⟩ := h
  obtain ⟨plimKept, tcntKept, -⟩ := done.devices
  exact ⟨done.memOk mem, done.flOk fl, plimKept.trans_le plim, tcntKept.trans_lt timer,
    done.recordOk running record⟩

theorem State.events_inv {s : State} (h : s.Inv) : s.applyKey.applyTimer.Inv := by
  obtain ⟨mem, fl, plim, timer, record⟩ := h
  obtain ⟨m, i, e, -, wf, -⟩ := s.events_spec
  rw [e]
  exact ⟨wf mem, fl, plim, timer, record⟩

theorem State.enter_inv {s : State} (h : s.Inv) (n : Nat) : (s.enter n).Inv := by
  rcases s.enter_spec n with ⟨kind, stackFault, e⟩ | ⟨-, -, x, p, e⟩ <;> rw [e]
  · have raised : kind ≠ .none := by rcases stackFault with rfl | rfl <;> decide
    exact State.raise_inv h raised (fun _ => stackFault) _ _
  · obtain ⟨mem, fl, plim, timer, record⟩ := h
    exact ⟨State.pushAll_memOk mem _, fl, plim, timer, record⟩

/-- Settles O4: the arrival of inputs, the instruction, its fault, the waiting events and an entry each
keep the invariant, and by `step_spec` a step is made of these. -/
theorem stepKeepsInvariant : Obligations.StepKeepsInvariant := by
  intro s t inv h
  have arrived : s.arrive.Inv := State.arrive_inv inv
  obtain ⟨running, ⟨kind, a, b, raised, rfl⟩ | ⟨i, u, -, -, done, next⟩⟩ := step_spec h
  · exact State.raise_inv (src := .instruction) arrived raised nofun a b
  · have completed : u.Inv := done.inv (by simp [running]) arrived
    rcases next with ⟨-, -, rfl⟩ | ⟨-, rfl | ⟨n, -, -, -, -, rfl⟩⟩
    · exact completed
    · exact State.events_inv completed
    · exact State.enter_inv (State.events_inv completed) n

end Sys2Proof.Machine
end

section
/-! PROOFS. The step of a running core, and of a stopped one: bytes that spell an instruction run it,
bytes that spell none raise the fault that names the first bad byte (30_encoding.md R85, R89, R100). -/

namespace Sys2Proof.Machine

@[simp] theorem State.pcAfter_zero (s : State) : s.pcAfter 0 = s.pc := BitVec.add_zero s.pc

theorem State.fetchByte_zero (s : State) : s.fetchByte 0 = s.read s.pc := by
  rw [State.fetchByte, State.pcAfter_zero]

/-- Settles O11: the bytes are fetched (`fetchReadsAtWrappingAddresses`), and every instruction answers
a next state (`exec_cases`). -/
theorem stepRunsTheInstructionAtPc : Obligations.StepRunsTheInstructionAtPc := by
  intro s i running bytes
  have fetched : s.fetch = .ok i := fetchReadsAtWrappingAddresses s i bytes
  obtain ⟨t, executed, -⟩ := exec_cases i s.arrive
  exact ⟨t, executed, step_of_exec running fetched executed⟩

/-- Settles O12: arrival writes the latches, the counter and the draws only. -/
theorem arrivalChangesOnlyDeviceLatches : Obligations.ArrivalChangesOnlyDeviceLatches := by
  intro s
  have engine : EngineKept s s.arrive := ⟨rfl, rfl, rfl, rfl, rfl⟩
  exact ⟨rfl, rfl, rfl, rfl, rfl, engine, rfl, rfl, rfl, rfl, rfl⟩

/-- Settles O14: a rejected fetch raises a fault, and a fetched instruction answers a next state. -/
theorem runningStepAnswersNext : Obligations.RunningStepAnswersNext := by
  intro s running
  cases fetched : s.fetch with
  | error e => exact ⟨_, step_of_rejected running fetched⟩
  | ok i =>
    obtain ⟨t, executed, -⟩ := exec_cases i s.arrive
    exact ⟨_, step_of_exec running fetched executed⟩

theorem step_of_halted {s : State} (h : s.run = .halted) : step s = .fault .halted := by
  unfold step
  rw [h]

theorem step_of_faulted {s : State} (h : s.run = .faulted) : step s = .fault .faulted := by
  unfold step
  rw [h]

/-- A stopped core ignores inputs (60_exceptions.md R261). -/
theorem State.deviceInputs_of_stopped {s : State} (h : s.run ≠ .running) (es : List DeviceInput) :
    s.deviceInputs es = s := by
  induction es with
  | nil => rfl
  | cons e es ih =>
    have ignored : s.deviceInput e = s := if_neg h
    rw [State.deviceInputs, ignored, ih]

/-- Settles O15, by the two stopped states. -/
theorem stoppedCoreStaysStopped : Obligations.StoppedCoreStaysStopped := by
  intro s es
  refine ⟨fun halted => ?_, fun faulted => ?_⟩
  · exact ⟨step_of_halted halted, State.deviceInputs_of_stopped (by simp [halted]) es⟩
  · exact ⟨step_of_faulted faulted, State.deviceInputs_of_stopped (by simp [faulted]) es⟩

/-! ### Rejected fetches -/

theorem rejected_faults {s : State} (running : s.run = .running) {e : Reject}
    (rejected : s.fetch = .error e) {kind : FaultKind} {addr byte : Byte}
    (raises : s.arrive.rejectFetch e = s.arrive.raise kind addr byte .instruction) :
    ∃ t, step s = .next t ∧ FaultTaken kind addr byte .instruction s.arrive t :=
  ⟨_, step_of_rejected running rejected, raises ▸ s.arrive.raise_faultTaken kind addr byte _⟩

/-- The opcode bytes written out in Safety.lean are all that the opcode map has. -/
theorem opShape_of_unlisted {op : Byte} (h : op ∉ recognisedOpcodes) : opShape op = none := by
  have key : ∀ op : Byte, op ∉ recognisedOpcodes → (opShape op).isNone = true := by decide
  exact Option.isNone_iff_eq_none.1 (key op h)

theorem opShape_of_mem_opcodesR {op : Byte} (h : op ∈ opcodesR) :
    ∃ mk, opShape op = some (.r mk) := by
  fin_cases h <;> exact ⟨_, rfl⟩

theorem opShape_of_mem_opcodesRI {op : Byte} (h : op ∈ opcodesRI) :
    ∃ mk, opShape op = some (.ri mk) := by
  obtain rfl := List.mem_singleton.1 h
  exact ⟨_, rfl⟩

theorem opShape_of_mem_opcodesRR {op : Byte} (h : op ∈ opcodesRR) :
    ∃ mk, opShape op = some (.rr mk) := by
  fin_cases h <;> exact ⟨_, rfl⟩

/-- The 256 bytes, each once. -/
def allBytes : List Byte := (List.range 256).map (BitVec.ofNat 8)

theorem mem_allBytes (b : Byte) : b ∈ allBytes :=
  List.mem_map.2 ⟨b.toNat, List.mem_range.2 b.isLt, by simp⟩

theorem nodup_allBytes : allBytes.Nodup := by
  refine List.nodup_range.map_on fun x hx y hy e => ?_
  rw [List.mem_range] at hx hy
  bv_omega

/-- Of the 256 bytes, those not among `listed` are 256 less the number of these. -/
theorem length_filter_not_contains {listed : List Byte} (nodup : listed.Nodup) :
    (allBytes.filter fun b => !listed.contains b).length + listed.length = 256 := by
  have perm : (allBytes.filter fun b => listed.contains b).Perm listed :=
    (List.perm_ext_iff_of_nodup (nodup_allBytes.filter _) nodup).2 fun b => by
      simp [mem_allBytes b]
  have parts := List.length_eq_length_filter_add (l := allBytes) fun b => listed.contains b
  have all : allBytes.length = 256 := by rw [allBytes, List.length_map, List.length_range]
  have := perm.length_eq
  omega

/-- Settles O16: no row of the opcode map has the byte (`opShape_of_unlisted`), so the fetch is
rejected. -/
theorem unlistedOpcodeRaisesInvalidOpcode : Obligations.UnlistedOpcodeRaisesInvalidOpcode := by
  refine ⟨?count, fun s running unlisted => ?_⟩
  case count =>
    have count := length_filter_not_contains (listed := recognisedOpcodes) (by decide)
    have listed : recognisedOpcodes.length = 34 := rfl
    rw [allBytes] at count
    omega
  have rejected : s.fetch = .error (.invalidOpcode (s.read s.pc)) := by
    rw [State.fetch, decode, s.fetchByte_zero, opShape_of_unlisted unlisted]
  exact rejected_faults running rejected rfl

/-- In every format with operand bytes, byte 1 above 7 is rejected (30_encoding.md R85). -/
theorem decode_badOperandOne {op b1 : Byte} (listed : op ∈ opcodesR ++ opcodesRI ++ opcodesRR)
    (high : 7 < b1.toNat) (b2 : Byte) : decode op b1 b2 = .error (.invalidOperand 1 b1) := by
  rcases List.mem_append.1 listed with listed | rr
  · rcases List.mem_append.1 listed with r | ri
    · obtain ⟨mk, row⟩ := opShape_of_mem_opcodesR r
      rw [decode, row, regOperand_of_gt 1 high]
    · obtain ⟨mk, row⟩ := opShape_of_mem_opcodesRI ri
      rw [decode, row, regOperand_of_gt 1 high]
  · obtain ⟨mk, row⟩ := opShape_of_mem_opcodesRR rr
    rw [decode, row, regOperand_of_gt 1 high]

/-- In format RR, byte 2 above 7 is rejected when byte 1 is not (60_exceptions.md R244). -/
theorem decode_badOperandTwo {op b1 b2 : Byte} (listed : op ∈ opcodesRR) (low : b1.toNat ≤ 7)
    (high : 7 < b2.toNat) : decode op b1 b2 = .error (.invalidOperand 2 b2) := by
  obtain ⟨mk, row⟩ := opShape_of_mem_opcodesRR listed
  obtain ⟨a, rfl⟩ := exists_regByte_of_le low
  rw [decode, row, regOperand_regByte, regOperand_of_gt 2 high]

/-- Settles O17, operand byte 1 and then operand byte 2. -/
theorem badRegisterByteRaisesInvalidOperand : Obligations.BadRegisterByteRaisesInvalidOperand := by
  intro s running
  refine ⟨fun listed high => ?_, fun listed low high => ?_⟩
  · have rejected : s.fetch = .error (.invalidOperand 1 (s.read (s.pc + 1))) :=
      decode_badOperandOne (s.fetchByte_zero ▸ listed) high _
    exact rejected_faults running rejected rfl
  · have rejected : s.fetch = .error (.invalidOperand 2 (s.read (s.pc + 2))) :=
      decode_badOperandTwo (s.fetchByte_zero ▸ listed) low high
    exact rejected_faults running rejected rfl

end Sys2Proof.Machine
end

section
/-! PROOFS. The frames of the instructions: a state built from `s` by updates of the registers, the PC,
FL, memory and the output keeps the rest. -/

namespace Sys2Proof.Machine

theorem coreKept_of_eq {s t : State} {dest : List Reg} {cells : List Byte}
    (h : t = { s with regs := t.regs, pc := t.pc, fl := t.fl, mem := t.mem, out := t.out })
    (regs : RegsKept dest s t) (mem : MemKept cells s t) : CoreKept dest cells s t := by
  have interrupts : InterruptsKept s t := by rw [h]; exact ⟨rfl, rfl⟩
  have engine : EngineKept s t := by rw [h]; exact ⟨rfl, rfl, rfl, rfl, rfl⟩
  have devices : DevicesKept s t := by rw [h]; exact ⟨rfl, rfl, rfl, rfl, rfl, rfl, rfl⟩
  exact ⟨regs, mem, interrupts, engine, devices⟩

theorem keptBut_of_eq {s t : State} {dest : List Reg} {cells : List Byte}
    (h : t = { s with regs := t.regs, pc := t.pc, mem := t.mem })
    (regs : RegsKept dest s t) (mem : MemKept cells s t) : KeptBut dest cells s t := by
  have fl : t.fl = s.fl := by rw [h]
  have out : t.out = s.out := by rw [h]
  exact ⟨coreKept_of_eq (by rw [h]) regs mem, fl, out⟩

/-- A move of the PC keeps everything else. -/
theorem State.jump_keptBut (s : State) (p : Byte) : KeptBut [] [] s (s.jump p) :=
  keptBut_of_eq rfl (fun _ _ => rfl) (fun _ _ => rfl)

end Sys2Proof.Machine
end

section
/-! PROOFS. The shifts, CMP and the faults of the ALU (40_alu.md R131 to R136). -/

namespace Sys2Proof.Machine

/-- Settles O22: the shifts of `BitVec` are multiplication modulo 256 and division by the power of
two, and a count of the whole width leaves nothing. -/
theorem shiftResults : Obligations.ShiftResults := by
  refine ⟨spellsRR_of_row rfl fun _ _ => rfl, spellsRR_of_row rfl fun _ _ => rfl,
    fun a b s => ⟨?shl, ?shr⟩⟩
  case shl =>
    have result := s.binary_reg_self (fun A B => A <<< B.toNat) a b
    refine ⟨_, rfl, ?_, fun wide => ?_, s.advance_pcMoved 3, s.advance_setReg_keptBut 3 a _⟩
    · rw [result, BitVec.toNat_shiftLeft, Nat.shiftLeft_eq]
    · rw [result, BitVec.shiftLeft_eq_zero wide]
      rfl
  case shr =>
    have result := s.binary_reg_self (fun A B => A >>> B.toNat) a b
    refine ⟨_, rfl, ?_, fun wide => ?_, s.advance_pcMoved 3, s.advance_setReg_keptBut 3 a _⟩
    · rw [result, BitVec.toNat_ushiftRight, Nat.shiftRight_eq_div_pow]
    · rw [result, BitVec.ushiftRight_eq_zero wide]
      rfl

/-- Settles O23, by the three outcomes of the comparison (`compareFlags_cases`). -/
theorem compareSetsOneFlag : Obligations.CompareSetsOneFlag := by
  refine ⟨spellsRR_of_row rfl fun _ _ => rfl, fun a b s => ?_⟩
  have kept := coreKept_of_eq (dest := []) (cells := []) (s := s)
    (t := (s.advance 3).writeFl (compareFlags (s.reg a) (s.reg b))) rfl (fun _ _ => rfl)
    (fun _ _ => rfl)
  have pc : PcMoved 3 s ((s.advance 3).writeFl (compareFlags (s.reg a) (s.reg b))) :=
    s.advance_pcMoved 3
  rcases compareFlags_cases (s.reg a) (s.reg b) with ⟨order, flags⟩ | ⟨order, flags⟩ | ⟨order, flags⟩
  · exact ⟨_, rfl, fun _ => congrArg (· &&& flMask) flags, by omega, by omega, pc, kept, rfl⟩
  · exact ⟨_, rfl, by omega, fun _ => congrArg (· &&& flMask) flags, by omega, pc, kept, rfl⟩
  · exact ⟨_, rfl, by omega, by omega, fun _ => congrArg (· &&& flMask) flags, pc, kept, rfl⟩

/-- Settles O24: a division faults exactly by its zero divisor (`State.divide_cases`), and no other ALU
instruction touches RUN. -/
theorem aluFaultsOnlyOnZeroDivisor : Obligations.AluFaultsOnlyOnZeroDivisor := by
  intro a b s t i running alu executed
  by_cases divides : i = .div a b ∨ i = .mod a b
  · obtain ⟨op, f, arm⟩ : ∃ op f, exec i s = .next (s.divide op f a b) := by
      rcases divides with rfl | rfl
      · exact ⟨_, _, rfl⟩
      · exact ⟨_, _, rfl⟩
    cases executed.symm.trans arm
    rcases s.divide_cases op f a b with ⟨zero, e⟩ | ⟨nonzero, e⟩ <;> rw [e]
    · exact ⟨iff_of_true rfl ⟨divides, zero⟩, fun _ => rfl⟩
    · have completed : (s.binary f a b).run ≠ .faulted := by simp [State.binary, running]
      exact ⟨iff_of_false completed fun h => nonzero h.2, fun h => absurd h completed⟩
  · have kept : t.run = s.run := by
      cases i with
      | add | sub | mul | inc | dec | and | or | xor | not | shl | shr | cmp => cases executed; rfl
      | div | mod => exact absurd (by simpa using alu) divides
      | nop | hlt | ret | iret | push | pop | prn | pra | call | int | jmp | jeq | jne | jgt | jlt
      | jle | jge | ldi | ld | st => simp at alu
    have completed : t.run ≠ .faulted := by simp [kept, running]
    exact ⟨iff_of_false completed fun h => divides h.1, fun h => absurd h completed⟩

end Sys2Proof.Machine
end

section
/-! PROOFS. PUSH, POP, CALL and RET: within the stack region they store or load one byte, outside it
they fault (41_stack.md). -/

namespace Sys2Proof.Machine

/-! ### The checks, in the order of 41_stack.md R162 -/

theorem stackCheckPush_overflow {sp plim k : Nat} (h : sp < plim + k) :
    stackCheckPush sp plim k = some .stackOverflow := if_pos h

theorem stackCheckPush_underflow {sp plim k : Nat} (low : plim + k ≤ sp) (high : 0xF3 < sp) :
    stackCheckPush sp plim k = some .stackUnderflow :=
  (if_neg (Nat.not_lt.2 low)).trans (if_pos high)

theorem stackCheckPop_underflow {sp plim k : Nat} (h : 0xF3 < sp + k) :
    stackCheckPop sp plim k = some .stackUnderflow := if_pos h

theorem stackCheckPop_overflow {sp plim k : Nat} (high : sp + k ≤ 0xF3) (low : sp < plim) :
    stackCheckPop sp plim k = some .stackOverflow :=
  (if_neg (Nat.not_lt.2 high)).trans (if_pos low)

theorem State.push_of_fault {s : State} {kind : FaultKind}
    (check : stackCheckPush s.sp.toNat s.plim 1 = some kind) (op v : Byte) (done : State → State) :
    s.push op v done = s.raise kind s.pc op .instruction := by
  rw [State.push, check]

theorem State.push_of_passed {s : State} (check : stackCheckPush s.sp.toNat s.plim 1 = none)
    (op v : Byte) (done : State → State) : s.push op v done = done (s.pushByte v) := by
  rw [State.push, check]

theorem State.pop_of_fault {s : State} {kind : FaultKind}
    (check : stackCheckPop s.sp.toNat s.plim 1 = some kind) (op : Byte)
    (done : Byte → State → State) : s.pop op done = s.raise kind s.pc op .instruction := by
  rw [State.pop, check]

theorem State.pop_of_passed {s : State} (check : stackCheckPop s.sp.toNat s.plim 1 = none)
    (op : Byte) (done : Byte → State → State) :
    s.pop op done = done (s.read s.sp) (s.setSp (s.sp + 1)) := by
  rw [State.pop, check]

/-! ### Outside the stack region -/

theorem push_faults {i : Instr} {s : State} {op v : Byte} {done : State → State} {kind : FaultKind}
    (arm : exec i s = .next (s.push op v done))
    (check : stackCheckPush s.sp.toNat s.plim 1 = some kind) :
    ∃ t, exec i s = .next t ∧ FaultTaken kind s.pc op .instruction s t := by
  rw [State.push_of_fault check] at arm
  exact ⟨_, arm, s.raise_faultTaken kind s.pc op _⟩

theorem pop_faults {i : Instr} {s : State} {op : Byte} {done : Byte → State → State}
    {kind : FaultKind} (arm : exec i s = .next (s.pop op done))
    (check : stackCheckPop s.sp.toNat s.plim 1 = some kind) :
    ∃ t, exec i s = .next t ∧ FaultTaken kind s.pc op .instruction s t := by
  rw [State.pop_of_fault check] at arm
  exact ⟨_, arm, s.raise_faultTaken kind s.pc op _⟩

/-- Settles O29: the check decides the fault, which is the same for both. -/
theorem pushAndCallStackFaults : Obligations.PushAndCallStackFaults := by
  intro r s
  refine ⟨fun below => ?_, fun low high => ?_⟩
  · have check := stackCheckPush_overflow below
    exact ⟨push_faults rfl check, push_faults rfl check⟩
  · have check := stackCheckPush_underflow low high
    exact ⟨push_faults rfl check, push_faults rfl check⟩

/-- Settles O30: the check decides the fault, which is the same for both. -/
theorem popAndRetStackFaults : Obligations.PopAndRetStackFaults := by
  intro r s
  refine ⟨fun above => ?_, fun high below => ?_⟩
  · have check := stackCheckPop_underflow (plim := s.plim) (k := 1) (by omega : 0xF3 < s.sp.toNat + 1)
    exact ⟨pop_faults rfl check, pop_faults rfl check⟩
  · have check := stackCheckPop_overflow (k := 1) (by omega) below
    exact ⟨pop_faults rfl check, pop_faults rfl check⟩

/-! ### Within the stack region -/

theorem State.push_of_room {s : State} (low : s.plim + 1 ≤ s.sp.toNat) (high : s.sp.toNat ≤ 0xF3)
    (op v : Byte) (done : State → State) : s.push op v done = done (s.pushByte v) :=
  State.push_of_passed (stackCheckPush_eq_none.2 ⟨low, high⟩) op v done

theorem State.pop_of_room {s : State} (low : s.plim ≤ s.sp.toNat) (high : s.sp.toNat ≤ 0xF2)
    (op : Byte) (done : Byte → State → State) :
    s.pop op done = done (s.read s.sp) (s.setSp (s.sp + 1)) :=
  State.pop_of_passed (stackCheckPop_eq_none.2 ⟨low, by omega⟩) op done

/-- With SP at or below the stack's base, the slot of a byte pushed holds that byte: it is not the
keyboard register. -/
theorem State.read_pushByte_slot {s : State} (mem : s.memOk) (high : s.sp.toNat ≤ 0xF3) (v : Byte) :
    (s.pushByte v).read (s.sp - 1) = v := by
  have notKeyboard : s.sp - 1 ≠ keyboardAddr := by
    unfold keyboardAddr
    bv_omega
  rw [State.read_pushByte mem, if_pos ⟨rfl, notKeyboard⟩]

theorem State.pushByte_jump_keptBut (s : State) (v p : Byte) :
    KeptBut [.r7] [s.sp - 1] s ((s.pushByte v).jump p) := by
  have regs : RegsKept [.r7] s ((s.pushByte v).jump p) := fun q hq => by
    rw [State.jump_reg, State.pushByte_reg, if_neg (List.ne_of_not_mem_cons hq)]
  have mem : MemKept [s.sp - 1] s ((s.pushByte v).jump p) := fun c hc =>
    s.read_pushByte_of_ne v (List.ne_of_not_mem_cons hc)
  exact keptBut_of_eq rfl regs mem

/-- Settles O25: with room the check passes (`State.push_of_room`), and one byte is stored. -/
theorem pushStoresBelowSp : Obligations.PushStoresBelowSp := by
  intro r s mem low high
  have arm : exec (.push r) s = .next ((s.pushByte (s.reg r)).advance 2) :=
    congrArg Host.Outcome.next (State.push_of_room low high _ _ _)
  have sp : ((s.pushByte (s.reg r)).advance 2).sp.toNat = s.sp.toNat - 1 := by
    rw [State.advance_sp, State.pushByte_sp]
    bv_omega
  exact ⟨_, arm, State.read_pushByte_slot mem high _, sp, s.advance_pcMoved 2,
    s.pushByte_jump_keptBut _ _⟩

/-- Settles O27: with room the check passes (`State.push_of_room`), and the return address is
stored. -/
theorem callPushesReturnAddress : Obligations.CallPushesReturnAddress := by
  intro r s mem low high
  have arm : exec (.call r) s = .next ((s.pushByte (s.pcAfter 2)).jump (s.reg r)) :=
    congrArg Host.Outcome.next (State.push_of_room low high _ _ _)
  have slot : (((s.pushByte (s.pcAfter 2)).jump (s.reg r)).read (s.sp - 1)).toNat =
      (s.pc.toNat + 2) % 256 := by
    rw [State.jump_read, State.read_pushByte_slot mem high, State.pcAfter_toNat]
  have sp : ((s.pushByte (s.pcAfter 2)).jump (s.reg r)).sp.toNat = s.sp.toNat - 1 := by
    rw [State.jump_sp, State.pushByte_sp]
    bv_omega
  exact ⟨_, arm, rfl, slot, sp, s.pushByte_jump_keptBut _ _⟩

theorem State.sp_add_one_toNat {s : State} (high : s.sp.toNat ≤ 0xF2) :
    (s.sp + 1).toNat = s.sp.toNat + 1 := by bv_omega

theorem State.setSp_jump_keptBut (s : State) (v p : Byte) : KeptBut [.r7] [] s ((s.setSp v).jump p) :=
  keptBut_of_eq rfl (fun _ hq => State.reg_setReg_of_ne s v (List.ne_of_not_mem_cons hq))
    (fun _ _ => rfl)

/-- Settles O28: with a byte on the stack the check passes (`State.pop_of_room`). -/
theorem retPopsIntoPc : Obligations.RetPopsIntoPc := by
  intro s low high
  have arm : exec .ret s = .next ((s.setSp (s.sp + 1)).jump (s.read s.sp)) :=
    congrArg Host.Outcome.next (State.pop_of_room low high _ _)
  have sp : ((s.setSp (s.sp + 1)).jump (s.read s.sp)).sp.toNat = s.sp.toNat + 1 := by
    rw [State.jump_sp, State.sp_setSp, State.sp_add_one_toNat high]
  exact ⟨_, arm, rfl, sp, s.setSp_jump_keptBut _ _⟩

/-- The state after POP r with a byte on the stack. -/
def State.popped (s : State) (r : Reg) : State :=
  ((s.setSp (s.sp + 1)).advance 2).setReg r (s.read s.sp)

theorem exec_pop_of_room {s : State} (low : s.plim ≤ s.sp.toNat) (high : s.sp.toNat ≤ 0xF2)
    (r : Reg) : exec (.pop r) s = .next (s.popped r) :=
  congrArg Host.Outcome.next (State.pop_of_room low high _ _)

@[simp] theorem State.popped_reg_self (s : State) (r : Reg) : (s.popped r).reg r = s.read s.sp :=
  State.reg_setReg_self _ r _

theorem State.popped_sp (s : State) {r : Reg} (h : r ≠ .r7) : (s.popped r).sp = s.sp + 1 := by
  rw [State.sp, State.popped, State.reg_setReg_of_ne _ _ h.symm, State.advance_reg]
  exact s.sp_setSp _

theorem State.popped_keptBut (s : State) (r : Reg) : KeptBut [r, .r7] [] s (s.popped r) := by
  have regs : RegsKept [r, .r7] s (s.popped r) := fun q hq => by
    rw [List.mem_cons, List.mem_singleton, not_or] at hq
    rw [State.popped, State.reg_setReg_of_ne _ _ hq.1, State.advance_reg, State.reg_setSp,
      if_neg hq.2]
  exact keptBut_of_eq rfl regs (fun _ _ => rfl)

/-- Settles O26: with a byte on the stack the check passes (`exec_pop_of_room`), and the destination is
written last. -/
theorem popLoadsFromSp : Obligations.PopLoadsFromSp := by
  intro r s low high
  have sp : r ≠ .r7 → (s.popped r).sp.toNat = s.sp.toNat + 1 := fun hr => by
    rw [s.popped_sp hr, State.sp_add_one_toNat high]
  exact ⟨_, exec_pop_of_room low high r, s.popped_reg_self r, sp, s.advance_pcMoved 2,
    s.popped_keptBut r⟩

/-- Settles O31, as the spec derives it: POP, run after what PUSH leaves (`pushStoresBelowSp`), finds
SP on the slot just written (`popLoadsFromSp`). -/
theorem pushThenPopRoundTrip : Obligations.PushThenPopRoundTrip := by
  intro i j s mem low high
  obtain ⟨t, pushed, slot, sp, -, ⟨regs, cells, -, -, devices⟩, -⟩ := pushStoresBelowSp i s mem low high
  obtain ⟨plim, -⟩ := devices
  have top : t.sp = s.sp - 1 := by bv_omega
  have popped := exec_pop_of_room (s := t) (by omega) (by omega) j
  obtain ⟨⟨regs', cells', -⟩, -⟩ := t.popped_keptBut j
  have value : t.read t.sp = s.reg i := by rw [top, slot]
  refine ⟨t, _, pushed, popped, (t.popped_reg_self j).trans value, fun hj => ?_, ?_, fun r hr => ?_,
    fun c hc => ?_⟩
  · rw [t.popped_sp hj, top, BitVec.sub_add_cancel]
  · rw [cells' _ (by simp), slot]
  · rw [regs' r hr, regs r fun h => hr (List.mem_cons_of_mem j h)]
  · rw [cells' c (by simp), cells c hc]

end Sys2Proof.Machine
end

section
/-! PROOFS. The jumps (42_control.md). -/

namespace Sys2Proof.Machine

/-- The mask FL is read through has the bits of E, G and L. -/
theorem State.readFl_getLsbD (s : State) {k : Nat} (h : flMask.getLsbD k = true) :
    s.readFl.getLsbD k = s.fl.getLsbD k := by
  rw [State.readFl, BitVec.getLsbD_and, h, Bool.and_true]

theorem State.flagE_eq (s : State) : s.flagE = s.fl.getLsbD 0 := s.readFl_getLsbD rfl
theorem State.flagG_eq (s : State) : s.flagG = s.fl.getLsbD 1 := s.readFl_getLsbD rfl
theorem State.flagL_eq (s : State) : s.flagL = s.fl.getLsbD 2 := s.readFl_getLsbD rfl

/-- All a jump on a condition does. -/
theorem jumpsIf {i : Instr} {s : State} {cond : Bool} {r : Reg}
    (arm : exec i s = .next (s.jumpIf cond r)) :
    ∃ t, exec i s = .next t ∧
      t.pc.toNat = (if cond then (s.reg r).toNat else (s.pc.toNat + 2) % 256) ∧
      KeptBut [] [] s t := by
  rw [State.jumpIf_eq] at arm
  refine ⟨_, arm, ?_, s.jump_keptBut _⟩
  cases cond with
  | true => rfl
  | false => exact s.pcAfter_toNat 2

/-- Settles O32: each jump is one jump on a condition (`jumpsIf`), and its condition reads the bits of
FL named. -/
theorem jumpsFollowTheFlags : Obligations.JumpsFollowTheFlags := by
  intro r s i taken listed
  rw [← s.flagE_eq, ← s.flagG_eq, ← s.flagL_eq] at listed
  fin_cases listed <;> exact jumpsIf rfl

end Sys2Proof.Machine
end

section
/-! PROOFS. Loads, stores and output (43_data_io.md), NOP, HLT and INT (44_system.md). -/

namespace Sys2Proof.Machine

/-- Settles O33: both write one register (`writesRegister`). -/
theorem ldiAndLdLoadTheByte : Obligations.LdiAndLdLoadTheByte := by
  intro a b imm s
  exact ⟨writesRegister rfl (State.reg_setReg_self _ a imm),
    writesRegister rfl (State.reg_setReg_self _ a _)⟩

/-- Settles O34, by whether the address is the keyboard register's. -/
theorem storeWritesOneByte : Obligations.StoreWritesOneByte := by
  intro a b s mem
  have stored : ((s.advance 3).write (s.ea a) (s.reg b)).read (s.ea a) =
      if s.ea a = 0xF4 then s.read 0xF4 else s.reg b := by
    by_cases keyboard : s.ea a = 0xF4
    · rw [if_pos keyboard, keyboard]
      exact State.read_write_keyboard (s.advance 3) _ _
    · rw [if_neg keyboard]
      exact State.read_write_self (s := s.advance 3) mem keyboard _
  exact ⟨_, rfl, stored, s.advance_pcMoved 3, (s.advance 3).write_keptBut _ _⟩

/-- Settles O35: the fetch's address is the one stored to. -/
theorem storeIsSeenByTheNextFetch : Obligations.StoreIsSeenByTheNextFetch := by
  intro a b k s mem notKeyboard next
  refine ⟨_, rfl, ?_⟩
  have address : ((s.advance 3).write (s.ea a) (s.reg b)).pcAfter k = s.ea a := by
    apply BitVec.eq_of_toNat_eq
    rw [State.pcAfter_toNat, State.write_pc, State.advance_pc, State.pcAfter_toNat, next]
    omega
  rw [State.fetchByte, address]
  exact State.read_write_self (s := s.advance 3) mem notKeyboard _

theorem State.advance_emit_coreKept (s : State) (n : Nat) (item : OutputItem) :
    CoreKept [] [] s ((s.advance n).emit item) :=
  coreKept_of_eq rfl (fun _ _ => rfl) (fun _ _ => rfl)

/-- Settles O36: one item is emitted, and the rest is kept (`State.advance_emit_coreKept`). -/
theorem prnEmitsSignedValue : Obligations.PrnEmitsSignedValue := by
  refine ⟨spellsR_of_row rfl fun _ => rfl, fun r s => ?_⟩
  exact ⟨_, rfl, rfl, s.advance_pcMoved 2, s.advance_emit_coreKept 2 _, rfl⟩

/-- Settles O37: one item is emitted, and the rest is kept (`State.advance_emit_coreKept`). -/
theorem praEmitsCharacter : Obligations.PraEmitsCharacter := by
  refine ⟨spellsR_of_row rfl fun _ => rfl, fun r s => ?_⟩
  exact ⟨_, rfl, rfl, s.advance_pcMoved 2, s.advance_emit_coreKept 2 _, rfl⟩

/-- Settles O39: NOP is a move of the PC. -/
theorem nopOnlyAdvancesPc : Obligations.NopOnlyAdvancesPc := by
  intro s
  exact ⟨_, rfl, s.advance_pcMoved 1, s.jump_keptBut _⟩

theorem State.boundary_of_halted {s : State} (h : s.run = .halted) : s.boundary = s := by
  rw [State.boundary, h]

/-- Settles O40: HLT is fetched by its opcode alone, and a halted core has no boundary
(`State.boundary_of_halted`). -/
theorem haltStopsWithoutBoundary : Obligations.HaltStopsWithoutBoundary := by
  refine ⟨fun s => ?_, fun s running opcode => ?_⟩
  · have interrupts : InterruptsKept s (s.advance 1).halt := ⟨rfl, rfl⟩
    have devices : DevicesKept s (s.advance 1).halt := ⟨rfl, rfl, rfl, rfl, rfl, rfl, rfl⟩
    exact ⟨_, rfl, rfl, s.advance_pcMoved 1, fun _ _ => rfl, fun _ _ => rfl, rfl, interrupts, devices,
      rfl, rfl, rfl, rfl, rfl⟩
  · have fetched : s.fetch = .ok .hlt := by
      rw [State.fetch, s.fetchByte_zero, opcode]
      exact decode_z_ok rfl _ _
    have halted := step_of_exec (u := (s.arrive.advance 1).halt) running fetched rfl
    rw [State.boundary_of_halted rfl] at halted
    exact ⟨_, halted, rfl, s.advance_pcMoved 1, fun _ _ => rfl, fun _ _ => rfl, ⟨rfl, rfl⟩, rfl, rfl⟩

/-- The bit of one line (10_state.md R27). -/
theorem getLsbD_line {n k : Nat} (h : k < 8) :
    ((1 : Byte) <<< n).getLsbD k = decide (k = n) := by
  rw [show (1 : Byte) <<< n = BitVec.twoPow 8 n from (BitVec.twoPow_eq 8 n).symm,
    BitVec.getLsbD_twoPow]
  by_cases e : k = n
  · simp [← e, h]
  · simp [e, Ne.symm e]

theorem State.setPending_getLsbD (s : State) (n : Nat) {k : Nat} (h : k < 8) :
    (s.setPending n).is.getLsbD k = (s.is.getLsbD k || decide (k = n)) := by
  rw [State.setPending_is, BitVec.getLsbD_or, getLsbD_line h]

/-- Settles O41, by the test of the line number. -/
theorem intMakesLinePending : Obligations.IntMakesLinePending := by
  intro r s
  refine ⟨fun line => ?_, fun none => ⟨_, if_pos none, s.raise_faultTaken _ _ _ _⟩⟩
  have engine : EngineKept s ((s.advance 2).setPending (s.reg r).toNat) :=
    ⟨rfl, rfl, rfl, rfl, rfl⟩
  have devices : DevicesKept s ((s.advance 2).setPending (s.reg r).toNat) :=
    ⟨rfl, rfl, rfl, rfl, rfl, rfl, rfl⟩
  exact ⟨_, if_neg (Nat.not_lt.2 line), fun k hk => (s.advance 2).setPending_getLsbD _ hk,
    s.advance_pcMoved 2, fun _ _ => rfl, fun _ _ => rfl, rfl, rfl, engine, devices, rfl⟩

end Sys2Proof.Machine
end

section
/-! PROOFS. The return from an interrupt (44_system.md R223). -/

namespace Sys2Proof.Machine

/-- A failed check, of the first slot or of the other nine, is taken as the fault. -/
theorem State.interruptReturn_of_fault {s : State} {kind : FaultKind}
    (check : stackCheckPop s.sp.toNat s.plim 1 = some kind ∨
      (stackCheckPop s.sp.toNat s.plim 1 = none ∧
        stackCheckPop (s.read s.sp).toNat s.plim 9 = some kind)) (op : Byte) :
    s.interruptReturn op = s.raise kind s.pc op .instruction := by
  rcases check with first | ⟨first, others⟩
  · rw [State.interruptReturn, first]
  · rw [State.interruptReturn, first]
    dsimp only
    rw [others]

theorem State.interruptReturn_of_passed {s : State}
    (first : stackCheckPop s.sp.toNat s.plim 1 = none)
    (others : stackCheckPop (s.read s.sp).toNat s.plim 9 = none) (op : Byte) :
    s.interruptReturn op = s.popFrame := by
  rw [State.interruptReturn, first]
  dsimp only
  rw [others]

/-- Settles O42: both checks pass, and the frame is popped (`State.popFrame`). -/
theorem iretPopsTheFrame : Obligations.IretPopsTheFrame := by
  rintro s v rfl low high low9 high9
  have first : stackCheckPop s.sp.toNat s.plim 1 = none := stackCheckPop_eq_none.2 ⟨low, by omega⟩
  have others : stackCheckPop (s.read s.sp).toNat s.plim 9 = none :=
    stackCheckPop_eq_none.2 ⟨low9, by omega⟩
  have arm : exec .iret s = .next s.popFrame :=
    congrArg Host.Outcome.next (State.interruptReturn_of_passed first others _)
  have engine : EngineKept s s.popFrame := ⟨rfl, rfl, rfl, rfl, rfl⟩
  have devices : DevicesKept s s.popFrame := ⟨rfl, rfl, rfl, rfl, rfl, rfl, rfl⟩
  exact ⟨_, arm, rfl, rfl, rfl, rfl, rfl, rfl, rfl, rfl, rfl, rfl, rfl, rfl, fun _ _ => rfl, engine,
    devices, rfl⟩

theorem iret_faults {s : State} {kind : FaultKind}
    (check : stackCheckPop s.sp.toNat s.plim 1 = some kind ∨
      (stackCheckPop s.sp.toNat s.plim 1 = none ∧
        stackCheckPop (s.read s.sp).toNat s.plim 9 = some kind)) :
    ∃ t, exec .iret s = .next t ∧ FaultTaken kind s.pc 0x13 .instruction s t :=
  ⟨_, congrArg Host.Outcome.next (State.interruptReturn_of_fault check _), s.raise_faultTaken _ _ _ _⟩

/-- Settles O43: which check fails first decides the fault (`iret_faults`). -/
theorem iretStackFaults : Obligations.IretStackFaults := by
  intro s
  refine ⟨?_, ?_⟩
  · rintro (above | ⟨low, high, above⟩)
    · exact iret_faults (.inl (stackCheckPop_underflow (by omega)))
    · exact iret_faults (.inr ⟨stackCheckPop_eq_none.2 ⟨low, by omega⟩,
        stackCheckPop_underflow (by omega)⟩)
  · rintro (⟨high, below⟩ | ⟨low, high, high9, below⟩)
    · exact iret_faults (.inl (stackCheckPop_overflow (by omega) below))
    · exact iret_faults (.inr ⟨stackCheckPop_eq_none.2 ⟨low, by omega⟩,
        stackCheckPop_overflow (by omega) below⟩)

end Sys2Proof.Machine
end

section
/-! PROOFS. Interrupt entry (60_exceptions.md R253, R254), and the return that undoes it (R256). -/

namespace Sys2Proof.Machine

/-! ### The frame pushed -/

/-- The `k`-th byte pushed by an entry with room stands `k` below the old SP (60_exceptions.md R253). -/
theorem State.read_frame_slot {s : State} (mem : s.memOk) (room : 10 ≤ s.sp.toNat)
    (base : s.sp.toNat ≤ 0xF3) {k : Nat} (first : 1 ≤ k) (last : k ≤ 10) :
    (s.pushAll s.frame).read (s.sp - BitVec.ofNat 8 k) = s.frame.getD (k - 1) 0 := by
  have slot : (s.sp - BitVec.ofNat 8 k).toNat = s.sp.toNat - k := by bv_omega
  rw [State.read_pushAll mem (by simpa using room) base, slot, s.frame_length, if_pos (by omega),
    show s.sp.toNat - 1 - (s.sp.toNat - k) = k - 1 by omega]

/-- The ten slots of the frame are the addresses the pushes may change. -/
theorem State.read_frame_other {s : State} (mem : s.memOk) (room : 10 ≤ s.sp.toNat)
    (base : s.sp.toNat ≤ 0xF3) {c : Byte}
    (other : ∀ k, 1 ≤ k → k ≤ 10 → c ≠ s.sp - BitVec.ofNat 8 k) :
    (s.pushAll s.frame).read c = s.read c := by
  rw [State.read_pushAll mem (by simpa using room) base, s.frame_length]
  refine if_neg fun inside => ?_
  exact other (s.sp.toNat - c.toNat) (by omega) (by omega) (by bv_omega)

theorem State.clearPending_getLsbD (s : State) (n : Nat) {k : Nat} (h : k < 8) :
    (s.clearPending n).is.getLsbD k = (s.is.getLsbD k && decide (k ≠ n)) := by
  rw [State.clearPending_is, BitVec.getLsbD_and, BitVec.getLsbD_not, getLsbD_line h]
  simp [h]

/-- The state after an entry with room on line `n`. -/
def State.entered (s : State) (n : Nat) : State :=
  (((s.pushAll s.frame).clearPending n).setIe false).jump
    ((s.pushAll s.frame).read (vectorBase + BitVec.ofNat 8 n))

theorem State.enter_of_room {s : State} (room : s.plim + 10 ≤ s.sp.toNat)
    (base : s.sp.toNat ≤ 0xF3) (n : Nat) : s.enter n = s.entered n := by
  rcases s.enter_cases n with ⟨kind, failed, -⟩ | ⟨-, e⟩
  · rw [stackCheckPush_eq_none.2 ⟨room, base⟩] at failed
    cases failed
  · exact e

theorem State.entered_read (s : State) (n : Nat) (c : Byte) :
    (s.entered n).read c = (s.pushAll s.frame).read c := by
  rw [State.entered, State.jump_read, State.setIe_read, State.clearPending_read]

theorem State.entered_reg (s : State) (n : Nat) (q : Reg) :
    (s.entered n).reg q = if q = .r7 then s.sp - 10 else s.reg q := by
  rw [State.entered, State.jump_reg, State.setIe_reg, State.clearPending_reg, State.pushAll_reg,
    s.frame_length]
  rfl

theorem State.entered_sp (s : State) (n : Nat) : (s.entered n).sp = s.sp - 10 := by
  rw [State.sp, State.entered_reg, if_pos rfl]

theorem State.entered_pc (s : State) (n : Nat) :
    (s.entered n).pc = (s.pushAll s.frame).read (vectorBase + BitVec.ofNat 8 n) := by
  rw [State.entered, State.jump_pc]

theorem State.entered_is (s : State) (n : Nat) : (s.entered n).is = (s.clearPending n).is := by
  simp [State.entered]

theorem State.entered_ie (s : State) (n : Nat) : (s.entered n).ie = false := by
  rw [State.entered, State.jump_ie, State.setIe_ie]

/-- An entry keeps RUN, the fault record, the device state, FL and the output. -/
theorem State.entered_kept (s : State) (n : Nat) :
    EngineKept s (s.entered n) ∧ DevicesKept s (s.entered n) ∧ (s.entered n).fl = s.fl ∧
      (s.entered n).out = s.out := by
  simp [State.entered, EngineKept, DevicesKept]

/-- Settles O44: the slots hold the frame (`State.read_frame_slot`), no other byte is written
(`State.read_frame_other`), and the vector lies above the stack. -/
theorem entrySavesTheContext : Obligations.EntrySavesTheContext := by
  intro s n line mem fl room base
  have ten : 10 ≤ s.sp.toNat := by omega
  have slot {k : Nat} (first : 1 ≤ k) (last : k ≤ 10) :
      (s.entered n).read (s.sp - BitVec.ofNat 8 k) = s.frame.getD (k - 1) 0 :=
    (s.entered_read n _).trans (State.read_frame_slot mem ten base first last)
  have sp : (s.entered n).sp.toNat = s.sp.toNat - 10 := by
    rw [s.entered_sp n]
    bv_omega
  have pending : ∀ k, k < 8 →
      (s.entered n).is.getLsbD k = (s.is.getLsbD k && decide (k ≠ n)) := fun k hk => by
    rw [s.entered_is n, s.clearPending_getLsbD n hk]
  have vector : (s.entered n).pc = s.read (0xF8 + BitVec.ofNat 8 n) :=
    (s.entered_pc n).trans <| State.read_frame_other mem ten base fun k _ _ => by
      unfold vectorBase
      bv_omega
  have regs : RegsKept [.r7] s (s.entered n) := fun q hq => by
    rw [s.entered_reg n, if_neg (List.ne_of_not_mem_cons hq)]
  have cells : MemKept [s.sp - 1, s.sp - 2, s.sp - 3, s.sp - 4, s.sp - 5, s.sp - 6, s.sp - 7,
      s.sp - 8, s.sp - 9, s.sp - 10] s (s.entered n) := fun c hc =>
    (s.entered_read n c).trans <| State.read_frame_other mem ten base fun k first last e => by
      subst e
      interval_cases k <;> simp at hc
  obtain ⟨engine, devices, flKept, outKept⟩ := s.entered_kept n
  refine ⟨s.entered n, State.enter_of_room room base n, sp, slot le_rfl (by decide),
    (slot (k := 2) (by decide) (by decide)).trans (readFl_of_flOk fl), ?_⟩
  exact ⟨slot (k := 3) (by decide) (by decide), slot (k := 4) (by decide) (by decide),
    slot (k := 5) (by decide) (by decide), slot (k := 6) (by decide) (by decide),
    slot (k := 7) (by decide) (by decide), slot (k := 8) (by decide) (by decide),
    slot (k := 9) (by decide) (by decide), slot (k := 10) (by decide) (by decide),
    pending, s.entered_ie n, vector, regs, cells, flKept, engine, devices, outKept⟩

theorem State.enter_faults {s : State} {n : Nat} {kind : FaultKind}
    (check : stackCheckPush s.sp.toNat s.plim 10 = some kind) :
    FaultTaken kind s.pc (BitVec.ofNat 8 n) .entry s (s.enter n) := by
  rw [State.enter, check]
  exact s.raise_faultTaken _ _ _ _

/-- Settles O45: the check of the ten slots decides the fault. -/
theorem entryStackFaults : Obligations.EntryStackFaults := by
  intro s n line
  exact ⟨fun below => State.enter_faults (stackCheckPush_overflow below),
    fun low high => State.enter_faults (stackCheckPush_underflow low high)⟩

/-- Settles O49: the popped R7 is the address of the frame's ninth byte (`entrySavesTheContext`), from
which IRET reads the others (`iretPopsTheFrame`). -/
theorem interruptReturnRestoresContext : Obligations.InterruptReturnRestoresContext := by
  intro s u n line mem fl room base plim top frame
  obtain ⟨_, rfl, sp, pcSlot, flSlot, slot0, slot1, slot2, slot3, slot4, slot5, slot6, slot7, -⟩ :=
    entrySavesTheContext s n line mem fl room base
  have slot {k : Nat} {a v : Byte} (e : a = s.sp - BitVec.ofNat 8 k) (first : 1 ≤ k) (last : k ≤ 10)
      (saved : (s.enter n).read (s.sp - BitVec.ofNat 8 k) = v) : u.read a = v := by
    rw [e, frame k first last, saved]
  have usp : u.sp.toNat = s.sp.toNat - 10 := by rw [top, sp]
  have r7 : u.read u.sp = s.sp - 9 :=
    slot (k := 10) (by bv_omega) (by decide) (by decide) slot7
  obtain ⟨t, arm, t7, t6, t5, t4, t3, t2, t1, t0, tfl, tpc, tie, tis, -⟩ :=
    iretPopsTheFrame u (s.sp - 9) r7.symm (by omega) (by omega) (by bv_omega) (by bv_omega)
  refine ⟨t, arm, fun r => ?_, ?_, ?_, tie, tis⟩
  · cases r with
    | r7 => exact t7.trans (BitVec.sub_add_cancel _ _)
    | r6 => exact t6.trans (slot (k := 9) rfl (by decide) (by decide) slot6)
    | r5 => exact t5.trans (slot (k := 8) (by bv_omega) (by decide) (by decide) slot5)
    | r4 => exact t4.trans (slot (k := 7) (by bv_omega) (by decide) (by decide) slot4)
    | r3 => exact t3.trans (slot (k := 6) (by bv_omega) (by decide) (by decide) slot3)
    | r2 => exact t2.trans (slot (k := 5) (by bv_omega) (by decide) (by decide) slot2)
    | r1 => exact t1.trans (slot (k := 4) (by bv_omega) (by decide) (by decide) slot1)
    | r0 => exact t0.trans (slot (k := 3) (by bv_omega) (by decide) (by decide) slot0)
  · rw [tfl, slot (k := 2) (by bv_omega) (by decide) (by decide) flSlot]
    exact readFl_of_flOk fl
  · exact tpc.trans (slot (k := 1) (by bv_omega) (by decide) (by decide) pcSlot)

end Sys2Proof.Machine
end

section
/-! PROOFS. The boundary: the waiting events and the poll (60_exceptions.md R250, R251, R260). -/

namespace Sys2Proof.Machine

theorem State.getLsbD_is_and_im (s : State) (k : Nat) :
    (s.is &&& s.im).getLsbD k = true ↔ s.is.getLsbD k = true ∧ (s.reg .r5).getLsbD k = true := by
  rw [BitVec.getLsbD_and, Bool.and_eq_true]
  rfl

/-- Settles O46, by all the poll can do (`State.poll_cases`): it enters the lowest line, which is the
only one with no candidate below it. -/
theorem pollEntersLowestLine : Obligations.PollEntersLowestLine := by
  intro s
  refine ⟨fun disabled => ?_, fun quiet => ?_, fun n _ enabled pending unmasked lowest => ?_⟩
  · rcases s.poll_cases with ⟨-, e⟩ | ⟨_, enabled, -⟩
    · exact e
    · simp [disabled] at enabled
  · rcases s.poll_cases with ⟨-, e⟩ | ⟨m, -, found, -⟩
    · exact e
    · obtain ⟨line, candidate, -⟩ := lowestLine_eq_some found
      exact absurd ((s.getLsbD_is_and_im m).1 candidate) (quiet m line)
  · have candidate : (s.is &&& s.im).getLsbD n = true := (s.getLsbD_is_and_im n).2 ⟨pending, unmasked⟩
    rcases s.poll_cases with ⟨disabled | quiet, -⟩ | ⟨m, -, found, e⟩
    · simp [enabled] at disabled
    · simp [quiet] at candidate
    · obtain ⟨-, candidate', lowest'⟩ := lowestLine_eq_some found
      rcases Nat.lt_trichotomy m n with below | rfl | above
      · exact absurd ((s.getLsbD_is_and_im m).1 candidate') (lowest m below)
      · exact e
      · simp [lowest' n above] at candidate

theorem State.applyKey_read {s : State} (mem : s.memOk) (a : Byte) :
    s.applyKey.read a = if s.kev = true ∧ a = 0xF4 then s.kbyte else s.read a := by
  rcases s.applyKey_cases with ⟨waiting, e⟩ | ⟨none, e⟩ <;> rw [e]
  · simp only [waiting, true_and]
    exact State.read_deviceWrite mem keyboardAddr s.kbyte a
  · rw [if_neg (by simp [none])]

theorem State.applyKey_getLsbD (s : State) {k : Nat} (h : k < 8) :
    s.applyKey.is.getLsbD k = (s.is.getLsbD k || (s.kev && decide (k = 1))) := by
  rcases s.applyKey_cases with ⟨waiting, e⟩ | ⟨none, e⟩ <;> rw [e]
  · rw [waiting, Bool.true_and]
    exact (s.deviceWrite keyboardAddr s.kbyte).setPending_getLsbD 1 h
  · rw [none, Bool.false_and, Bool.or_false]

theorem State.applyTimer_getLsbD (s : State) {k : Nat} (h : k < 8) :
    s.applyTimer.is.getLsbD k = (s.is.getLsbD k || (s.tev && decide (k = 0))) := by
  rcases s.applyTimer_cases with ⟨waiting, e⟩ | ⟨none, e⟩ <;> rw [e]
  · rw [waiting, Bool.true_and]
    exact s.setPending_getLsbD 0 h
  · rw [none, Bool.false_and, Bool.or_false]

theorem State.applyTimer_read (s : State) (a : Byte) : s.applyTimer.read a = s.read a := by
  obtain ⟨i, e, -⟩ := s.applyTimer_spec
  rw [e]
  rfl

theorem State.applyKey_tev (s : State) : s.applyKey.tev = s.tev := by
  obtain ⟨m, i, e, -⟩ := s.applyKey_spec
  rw [e]

/-- Settles O47: outside a running core there is no boundary; in one the events are applied, as
`State.events_spec` says of all fields but memory and IS. -/
theorem boundaryAppliesDeviceEvents : Obligations.BoundaryAppliesDeviceEvents := by
  intro s
  refine ⟨fun stopped => ?_, fun running mem => ⟨s.applyKey.applyTimer, ?_, fun a => ?_, fun k hk => ?_,
    ?_⟩⟩
  · rcases s.boundary_cases with ⟨running, -⟩ | ⟨-, e⟩
    · exact absurd running stopped
    · exact e
  · rcases s.boundary_cases with ⟨-, e⟩ | ⟨stopped, -⟩
    · exact e
    · exact absurd running stopped
  · rw [State.applyTimer_read, State.applyKey_read mem]
  · rw [State.applyTimer_getLsbD _ hk, State.applyKey_getLsbD s hk, s.applyKey_tev]
  · obtain ⟨m, i, e, -⟩ := s.events_spec
    rw [e]
    exact ⟨rfl, rfl, fun _ _ => rfl, rfl, rfl, rfl, ⟨rfl, rfl, rfl, rfl, rfl⟩, rfl, rfl, rfl, rfl, rfl,
      rfl⟩

end Sys2Proof.Machine
end

section
/-! PROOFS. What the latches take in (60_exceptions.md R262, R264, R265). -/

namespace Sys2Proof.Machine

theorem State.deviceInput_run (s : State) (e : DeviceInput) : (s.deviceInput e).run = s.run := by
  obtain ⟨_, _, _, _, h⟩ := s.deviceInputs_spec [e]
  show (s.deviceInputs [e]).run = s.run
  rw [h]

theorem lastKey_key (k : Byte) (es : List DeviceInput) :
    lastKey (.key k :: es) = some ((lastKey es).getD k) := List.getLast?_cons

theorem lastKey_tick (es : List DeviceInput) : lastKey (.tick :: es) = lastKey es := rfl

theorem State.deviceInput_key {s : State} (running : s.run = .running) (k : Byte) :
    s.deviceInput (.key k) = { s with kbyte := k, kev := true } := if_pos running

theorem State.deviceInput_tick {s : State} (running : s.run = .running) :
    s.deviceInput .tick = s.tick := if_pos running

/-- A key and then the inputs `es`: the key counts only if none of `es` is one. -/
theorem Latched.key_cons {s t : State} {k : Byte} {es : List DeviceInput}
    (rest : Latched es { s with kbyte := k, kev := true } t) : Latched (.key k :: es) s t := by
  obtain ⟨kbyte, kev, tcnt, tev⟩ := rest
  have count : (DeviceInput.key k :: es).count .tick = es.count .tick := by simp
  rw [Latched, lastKey_key, count]
  exact ⟨kbyte, by simp [kev], tcnt, tev⟩

/-- A tick and then the inputs `es`: when it reaches the period, TEV is set and the counter begins
anew. -/
theorem Latched.tick_cons {s t : State} {es : List DeviceInput} (rest : Latched es s.tick t) :
    Latched (.tick :: es) s t := by
  have count : (DeviceInput.tick :: es).count .tick = es.count .tick + 1 := by simp
  rw [Latched, lastKey_tick, count]
  obtain ⟨kbyte, kev, tcnt, tev⟩ := rest
  unfold State.tick at kbyte kev tcnt tev
  split at kbyte
  next reached =>
    rw [if_pos reached] at kev tcnt tev
    refine ⟨kbyte, kev, ?_, ?_⟩
    · rw [tcnt, show s.tcnt + (es.count .tick + 1) = 0 + es.count .tick + Config.timerPeriod by omega,
        Nat.add_mod_right]
    · rw [tev, decide_eq_true (by omega : Config.timerPeriod ≤ s.tcnt + (es.count .tick + 1))]
      simp
  next notReached =>
    rw [if_neg notReached] at kev tcnt tev
    rw [Nat.add_comm (es.count .tick) 1, ← Nat.add_assoc]
    exact ⟨kbyte, kev, tcnt, tev⟩

/-- The inputs are taken in one after another. -/
theorem State.deviceInputs_latched {s : State} (running : s.run = .running) (timer : s.timerOk)
    (es : List DeviceInput) : Latched es s (s.deviceInputs es) := by
  induction es generalizing s with
  | nil =>
    have below : s.tcnt < Config.timerPeriod := timer
    refine ⟨rfl, (Bool.or_false _).symm, (Nat.mod_eq_of_lt below).symm, ?_⟩
    simp [State.deviceInputs, below]
  | cons e es ih =>
    have rest := ih (s := s.deviceInput e) ((s.deviceInput_run e).trans running)
      (State.deviceInputs_timerOk timer [e])
    rw [State.deviceInputs]
    cases e with
    | tick =>
      rw [State.deviceInput_tick running] at rest ⊢
      exact rest.tick_cons
    | key k =>
      rw [State.deviceInput_key running] at rest ⊢
      exact rest.key_cons

/-- The arrival of a step's inputs takes in what is drawn for it. -/
theorem State.arrive_latched {s : State} (running : s.run = .running) (timer : s.timerOk) :
    Latched s.nextInputs s s.arrive :=
  State.deviceInputs_latched running timer s.nextInputs

/-- Settles O48: by `State.deviceInputs_latched`, for any list and so for the one drawn. -/
theorem inputsReachTheLatches : Obligations.InputsReachTheLatches := by
  intro s running timer
  have arrived : Latched s.nextInputs s s.arrive := State.arrive_latched running timer
  refine ⟨State.deviceInputs_latched running timer, fun now later settled => ?_, fun free => ?_⟩
  · rw [State.nextInputs_cons settled] at arrived
    exact ⟨arrived, by rw [State.arrive_inputs, settled]; rfl⟩
  · rw [State.nextInputs_nil free] at arrived
    exact ⟨arrived, by rw [State.arrive_inputs, free]; rfl⟩

end Sys2Proof.Machine
end

section
/-! PROOFS. What no boundary changes, and so what of a step rests on its instruction alone: the output,
FL, PLIM and the draws of inputs. -/

namespace Sys2Proof.Machine

/-- From `u` to `t` a boundary may have passed: its events and an entry write neither FL nor the output,
PLIM or the draws. -/
structure BoundaryKeeps (u t : State) : Prop where
  fl     : t.fl = u.fl
  out    : t.out = u.out
  plim   : t.plim = u.plim
  inputs : t.inputs = u.inputs
  draws  : t.draws = u.draws

theorem BoundaryKeeps.refl (u : State) : BoundaryKeeps u u := ⟨rfl, rfl, rfl, rfl, rfl⟩

theorem BoundaryKeeps.trans {u v t : State} (h : BoundaryKeeps u v) (h' : BoundaryKeeps v t) :
    BoundaryKeeps u t :=
  ⟨h'.fl.trans h.fl, h'.out.trans h.out, h'.plim.trans h.plim, h'.inputs.trans h.inputs,
    h'.draws.trans h.draws⟩

theorem State.events_boundaryKeeps (u : State) : BoundaryKeeps u u.applyKey.applyTimer := by
  obtain ⟨m, i, e, -⟩ := u.events_spec
  rw [e]
  exact ⟨rfl, rfl, rfl, rfl, rfl⟩

theorem State.enter_boundaryKeeps (u : State) (n : Nat) : BoundaryKeeps u (u.enter n) := by
  rcases u.enter_spec n with ⟨kind, -, e⟩ | ⟨-, -, x, p, e⟩ <;> rw [e] <;>
    exact ⟨rfl, rfl, rfl, rfl, rfl⟩

/-- `step_spec`, the boundary summed up in what it keeps. -/
theorem step_keeps {s t : State} (h : step s = .next t) :
    (∃ k a b, t = s.arrive.raise k a b .instruction) ∨
    (∃ i u, s.fetch = .ok i ∧ Completed i s.arrive u ∧ BoundaryKeeps u t) := by
  obtain ⟨-, ⟨k, a, b, -, e⟩ | ⟨i, u, fetched, -, done, next⟩⟩ := step_spec h
  · exact .inl ⟨k, a, b, e⟩
  · refine .inr ⟨i, u, fetched, done, ?_⟩
    rcases next with ⟨-, -, rfl⟩ | ⟨-, rfl | ⟨n, -, -, -, -, rfl⟩⟩
    · exact .refl _
    · exact u.events_boundaryKeeps
    · exact u.events_boundaryKeeps.trans (State.enter_boundaryKeeps _ n)

/-- Settles O13: arrival uses up one draw, and nothing after it in the step touches the draws. -/
theorem everyStepUsesOneDraw : Obligations.EveryStepUsesOneDraw := by
  intro s t h
  rcases step_keeps h with ⟨k, a, b, rfl⟩ | ⟨i, u, -, done, kept⟩
  · exact ⟨rfl, rfl⟩
  · obtain ⟨-, -, -, -, -, inputs, draws⟩ := done.devices
    exact ⟨kept.inputs.trans inputs, kept.draws.trans draws⟩

/-- Settles O59: neither an instruction nor a boundary writes PLIM. -/
theorem stepKeepsProgramLimit : Obligations.StepKeepsProgramLimit := by
  intro s t h
  rcases step_keeps h with ⟨k, a, b, rfl⟩ | ⟨i, u, -, done, kept⟩
  · rfl
  · obtain ⟨plim, -⟩ := done.devices
    exact kept.plim.trans plim

/-- Settles O38: only PRN and PRA emit as instructions (`Completed.out`), and no boundary emits. -/
theorem onlyPrnAndPraEmit : Obligations.OnlyPrnAndPraEmit := by
  intro s t h
  rcases step_keeps h with ⟨k, a, b, rfl⟩ | ⟨i, u, fetched, done, kept⟩
  · exact .inl rfl
  · rw [kept.out]
    rcases done.out with same | ⟨r, ⟨rfl, emitted⟩ | ⟨rfl, emitted⟩⟩
    · exact .inl same
    · rw [sext8_eq_toInt] at emitted
      exact .inr ⟨r, .inl ⟨fetched, emitted⟩⟩
    · exact .inr ⟨r, .inr ⟨fetched, emitted⟩⟩

/-- Settles O53: only CMP and IRET write FL as instructions (`Completed.fl`), and no boundary writes
it. -/
theorem onlyCmpAndIretWriteFlags : Obligations.OnlyCmpAndIretWriteFlags := by
  intro s t h changed
  rcases step_keeps h with ⟨k, a, b, rfl⟩ | ⟨i, u, fetched, done, kept⟩
  · exact absurd rfl changed
  · rcases done.fl with same | ⟨-, rfl | ⟨a, b, rfl⟩⟩
    · exact absurd (kept.fl.trans same) changed
    · exact .inl fetched
    · exact .inr ⟨a, b, fetched⟩

end Sys2Proof.Machine
end

section
/-! PROOFS. Who writes memory: the keyboard device its own cell, pushes the stack region, and ST the
rest (20_memory.md R56, R59). -/

namespace Sys2Proof.Machine

theorem State.read_pushAll_keyboard (s : State) (vs : List Byte) :
    (s.pushAll vs).read keyboardAddr = s.read keyboardAddr := by
  induction vs generalizing s with
  | nil => rfl
  | cons v vs ih =>
    rw [State.pushAll, ih]
    exact (s.setSp (s.sp - 1)).read_write_keyboard (s.sp - 1) v

/-- Pushes within addresses change the slots only, whatever the form of memory. -/
theorem State.read_pushAll_of_outside {s : State} {vs : List Byte} {c : Byte}
    (room : vs.length ≤ s.sp.toNat)
    (outside : c.toNat + vs.length < s.sp.toNat ∨ s.sp.toNat ≤ c.toNat) :
    (s.pushAll vs).read c = s.read c := by
  induction vs generalizing s with
  | nil => rfl
  | cons v vs ih =>
    rw [List.length_cons] at room outside
    have sp : (s.pushByte v).sp.toNat = s.sp.toNat - 1 := by
      rw [State.pushByte_sp]
      bv_omega
    rw [State.pushAll, ih (by omega) (by omega)]
    exact s.read_pushByte_of_ne v (by bv_omega)

theorem State.enter_read_keyboard (s : State) (n : Nat) : (s.enter n).read 0xF4 = s.read 0xF4 := by
  rcases s.enter_spec n with ⟨kind, -, e⟩ | ⟨-, -, x, p, e⟩ <;> rw [e]
  · rfl
  · exact s.read_pushAll_keyboard s.frame

theorem State.enter_read_outside {s : State} {a : Byte}
    (outside : a.toNat < s.plim ∨ 0xF2 < a.toNat) (n : Nat) : (s.enter n).read a = s.read a := by
  rcases s.enter_spec n with ⟨kind, -, e⟩ | ⟨room, base, x, p, e⟩ <;> rw [e]
  · rfl
  · have length := s.frame_length
    exact State.read_pushAll_of_outside (vs := s.frame) (by omega) (by omega)

theorem State.events_read_keyboard {s : State} (mem : s.memOk) :
    s.applyKey.applyTimer.read 0xF4 = if s.kev = true then s.kbyte else s.read 0xF4 := by
  rw [State.applyTimer_read, State.applyKey_read mem]
  simp

theorem State.events_read_other (s : State) {a : Byte} (h : a ≠ 0xF4) :
    s.applyKey.applyTimer.read a = s.read a := by
  obtain ⟨m, i, e, other, -⟩ := s.events_spec
  rw [e]
  exact other a h

/-- No instruction writes the keyboard register (20_memory.md R56). -/
theorem Completed.read_keyboard {i : Instr} {s t : State} (done : Completed i s t) :
    t.read 0xF4 = s.read 0xF4 := by
  rcases done.mem with e | ⟨a, v, e, -⟩
  · exact congrArg (Memory.read · _) e
  · exact (congrArg (Memory.read · _) e).trans (s.read_write_keyboard a v)

/-- An instruction that changes memory outside the stack region is the ST at that address. -/
theorem Completed.st_of_read_ne {i : Instr} {s t : State} (done : Completed i s t) {a : Byte}
    (outside : a.toNat < s.plim ∨ 0xF2 < a.toNat) (changed : t.read a ≠ s.read a) :
    ∃ x y, i = .st x y ∧ s.ea x = a := by
  rcases done.mem with e | ⟨c, v, e, writer⟩
  · exact absurd (congrArg (Memory.read · _) e) changed
  · have written : a = c := by
      by_contra other
      exact changed ((congrArg (Memory.read · _) e).trans (s.read_write_of_ne v other))
    subst written
    rcases writer with ⟨x, y, st, rfl⟩ | ⟨low, high⟩
    · exact ⟨x, y, st, rfl⟩
    · omega

/-- Settles O54: of the parts of a step only the waiting key event writes 0xF4. -/
theorem onlyTheKeyboardWritesItsCell : Obligations.OnlyTheKeyboardWritesItsCell := by
  intro s t mem h
  obtain ⟨-, ⟨k, a, b, -, rfl⟩ | ⟨i, u, -, -, done, next⟩⟩ := step_spec h
  · exact .inl rfl
  · have unwritten : u.read 0xF4 = s.read 0xF4 := done.read_keyboard
    have applied : u.applyKey.applyTimer.read 0xF4 = s.read 0xF4 ∨
        (s.arrive.kev = true ∧ u.applyKey.applyTimer.read 0xF4 = s.arrive.kbyte) := by
      obtain ⟨-, -, -, kev, kbyte, -⟩ := done.devices
      rw [State.events_read_keyboard (done.memOk mem), kev, kbyte, unwritten]
      by_cases waiting : s.arrive.kev = true
      · exact .inr ⟨waiting, if_pos waiting⟩
      · exact .inl (if_neg waiting)
    rcases next with ⟨-, -, rfl⟩ | ⟨-, rfl | ⟨n, -, -, -, -, rfl⟩⟩
    · exact .inl unwritten
    · exact applied
    · rw [State.enter_read_keyboard]
      exact applied

/-- Settles O55: outside the stack region and 0xF4 the boundary writes nothing, so the instruction wrote
the byte, and it is an ST (`Completed.st_of_read_ne`). -/
theorem onlyStWritesOutsideTheStack : Obligations.OnlyStWritesOutsideTheStack := by
  intro s t a h notKeyboard outside changed
  obtain ⟨-, ⟨k, _, b, -, rfl⟩ | ⟨i, u, fetched, -, done, next⟩⟩ := step_spec h
  · exact absurd rfl changed
  · have applied : u.applyKey.applyTimer.read a = u.read a := u.events_read_other notKeyboard
    have boundary : t.read a = u.read a := by
      rcases next with ⟨-, -, rfl⟩ | ⟨-, rfl | ⟨n, -, -, -, -, rfl⟩⟩
      · rfl
      · exact applied
      · have plim : u.applyKey.applyTimer.plim = s.plim :=
          u.events_boundaryKeeps.plim.trans done.devices.1
        rw [State.enter_read_outside (plim ▸ outside), applied]
    obtain ⟨x, y, rfl, address⟩ := done.st_of_read_ne outside (boundary ▸ changed)
    exact ⟨x, y, fetched, address⟩

end Sys2Proof.Machine
end

section
/-! PROOFS. Pending lines, servicing and precise faults over a step (60_exceptions.md R241, R252,
R257). -/

namespace Sys2Proof.Machine

@[simp] theorem State.events_reg (s : State) (r : Reg) :
    s.applyKey.applyTimer.reg r = s.reg r := by
  obtain ⟨m, i, e, -⟩ := s.events_spec
  rw [e]
  rfl

@[simp] theorem State.events_ie (s : State) : s.applyKey.applyTimer.ie = s.ie := by
  obtain ⟨m, i, e, -⟩ := s.events_spec
  rw [e]

@[simp] theorem State.events_pc (s : State) : s.applyKey.applyTimer.pc = s.pc := by
  obtain ⟨m, i, e, -⟩ := s.events_spec
  rw [e]

@[simp] theorem State.events_run (s : State) : s.applyKey.applyTimer.run = s.run := by
  obtain ⟨m, i, e, -⟩ := s.events_spec
  rw [e]

/-- No pending line is lost when the waiting events are applied. -/
theorem State.events_pending {s : State} {n : Nat} (h : s.is.getLsbD n = true) :
    s.applyKey.applyTimer.is.getLsbD n = true := by
  obtain ⟨m, i, e, -, -, -, -, kept⟩ := s.events_spec
  rw [e]
  exact kept n h

theorem Completed.pending {i : Instr} {s t : State} (done : Completed i s t) {n : Nat}
    (h : s.is.getLsbD n = true) : t.is.getLsbD n = true := by
  rcases done.is with e | ⟨r, -, e⟩ <;> rw [e]
  · exact h
  · exact Byte.getLsbD_or_of_left _ h

/-- An entry clears the pending bit of its own line only. -/
theorem State.enter_pending {s : State} {n k : Nat} (line : k < 8) (other : k ≠ n)
    (h : s.is.getLsbD k = true) : (s.enter n).is.getLsbD k = true := by
  rcases s.enter_spec n with ⟨kind, -, e⟩ | ⟨-, -, x, p, e⟩ <;> rw [e]
  · exact h
  · exact (s.clearPending_getLsbD n line).trans (by simp [h, other])

/-- Settles O50: only an entry clears pending bits, and only its own line's (`State.enter_pending`). -/
theorem pendingLineStaysUntilEntered : Obligations.PendingLineStaysUntilEntered := by
  intro s t n line h pending
  obtain ⟨-, ⟨k, a, b, -, rfl⟩ | ⟨i, u, fetched, executed, done, next⟩⟩ := step_spec h
  · exact .inl pending
  · have completed : u.is.getLsbD n = true := done.pending pending
    have applied := State.events_pending completed
    rcases next with ⟨-, -, rfl⟩ | ⟨-, rfl | ⟨m, -, enabled, -, unmasked, rfl⟩⟩
    · exact .inl completed
    · exact .inl applied
    · by_cases entered : n = m
      · subst entered
        rw [State.events_ie] at enabled
        rw [State.events_reg] at unmasked
        exact .inr ⟨i, u, fetched, executed, enabled, unmasked, rfl⟩
      · exact .inl (State.enter_pending line entered applied)

/-- An entry never raises IE. -/
theorem State.enter_ie {s : State} {n : Nat} (h : (s.enter n).ie = true) : s.ie = true := by
  rcases s.enter_spec n with ⟨kind, -, e⟩ | ⟨-, -, x, p, e⟩ <;> rw [e] at h
  · exact h
  · cases h

/-- Settles O51: of the instructions only IRET writes IE, setting it (`Completed.ie`), and an entry never
sets it. -/
theorem onlyIretAndEntryChangeIe : Obligations.OnlyIretAndEntryChangeIe := by
  intro s t h
  obtain ⟨-, ⟨k, a, b, -, rfl⟩ | ⟨i, u, fetched, executed, done, next⟩⟩ := step_spec h
  · exact ⟨fun low high => absurd (low.symm.trans high) (by decide),
      fun high low => absurd (low.symm.trans high) (by decide)⟩
  · refine ⟨fun low high => ?_, fun high low => ?_⟩
    · have raised : u.ie = true := by
        rcases next with ⟨-, -, rfl⟩ | ⟨-, rfl | ⟨n, -, enabled, -, -, rfl⟩⟩
        · exact high
        · rwa [State.events_ie] at high
        · rwa [State.events_ie] at enabled
      rcases done.ie with same | ⟨rfl, -⟩
      · exact absurd (low.symm.trans (same.symm.trans raised)) (by decide)
      · exact fetched
    · have enabled : u.ie = true := by
        rcases done.ie with same | ⟨-, set⟩
        · exact same.trans high
        · exact set
      rcases next with ⟨-, -, rfl⟩ | ⟨-, rfl | ⟨n, line, -, -, unmasked, rfl⟩⟩
      · exact absurd (low.symm.trans enabled) (by decide)
      · exact absurd (low.symm.trans ((u.events_ie).trans enabled)) (by decide)
      · rw [State.events_reg] at unmasked
        exact ⟨i, u, n, fetched, executed, line, unmasked, rfl⟩

/-- With servicing disabled a boundary makes no entry: it applies the waiting events at most. -/
theorem State.boundary_of_disabled {s : State} (disabled : s.ie = false) :
    s.boundary = s ∨ s.boundary = s.applyKey.applyTimer := by
  rcases s.boundary_cases with ⟨-, e⟩ | ⟨-, e⟩
  · rcases s.applyKey.applyTimer.poll_cases with ⟨-, quiet⟩ | ⟨n, enabled, -⟩
    · exact .inr (e.trans quiet)
    · rw [State.events_ie, disabled] at enabled
      cases enabled
  · exact .inl e

/-- Settles O52: an instruction other than IRET leaves servicing disabled, so that its boundary makes no
entry (`State.boundary_of_disabled`). -/
theorem handlerIsNotInterrupted : Obligations.HandlerIsNotInterrupted := by
  intro s u i running disabled fetched notIret executed
  have stillDisabled : u.ie = false := by
    obtain ⟨u', executed', outcome⟩ := exec_cases i s.arrive
    cases executed.symm.trans executed'
    rcases outcome with ⟨kind, a, b, -, rfl⟩ | done
    · exact disabled
    · rcases done.ie with same | ⟨iret, -⟩
      · exact same.trans disabled
      · exact absurd iret notIret
  refine ⟨u.boundary, step_of_exec running fetched executed, ?_⟩
  rcases State.boundary_of_disabled stillDisabled with e | e <;> rw [e]
  · exact ⟨⟨rfl, rfl, rfl, rfl, rfl⟩, rfl, rfl, rfl, stillDisabled⟩
  · obtain ⟨m, j, e, -⟩ := u.events_spec
    rw [e]
    exact ⟨⟨rfl, rfl, rfl, rfl, rfl⟩, rfl, rfl, rfl, stillDisabled⟩

/-- Settles O56: a faulted step raised one fault, the instruction's own or the entry's, and raising it
changes nothing else (`State.raise_faultTaken`). -/
theorem faultsArePrecise : Obligations.FaultsArePrecise := by
  intro s t h faulted
  obtain ⟨-, ⟨k, a, b, -, rfl⟩ | ⟨i, u, fetched, executed, -, next⟩⟩ := step_spec h
  · exact .inl (s.arrive.raise_faultTaken k a b _)
  · rcases next with ⟨halted, -, rfl⟩ | ⟨running, rfl | ⟨n, -, -, -, -, rfl⟩⟩
    · simp [halted] at faulted
    · simp [running] at faulted
    · rcases u.applyKey.applyTimer.enter_spec n with ⟨kind, -, e⟩ | ⟨-, -, x, p, e⟩
      · rw [e, State.events_pc]
        exact .inr ⟨i, u, fetched, executed, running, State.raise_faultTaken _ kind u.pc _ _⟩
      · rw [e] at faulted
        simp [running] at faulted

end Sys2Proof.Machine
end

section
/-! PROOFS. Two rules of every instruction: where the PC goes (30_encoding.md R102), and that the device
state is not seen (10_state.md R33, R34). -/

namespace Sys2Proof.Machine

/-- Settles O57, instruction by instruction: those that can fault move the PC when they do not. -/
theorem otherInstructionsAdvancePastTheirBytes :
    Obligations.OtherInstructionsAdvancePastTheirBytes := by
  intro i s t _ h completed
  cases i with
  | nop | hlt => cases h; exact .inl (s.advance_pcMoved 1)
  | prn r | pra r | inc r | dec r | not r => cases h; exact .inl (s.advance_pcMoved 2)
  | ldi r imm | ld a b | st a b | add a b | sub a b | mul a b | cmp a b | and a b | or a b | xor a b
  | shl a b | shr a b => cases h; exact .inl (s.advance_pcMoved 3)
  | push r =>
    cases h
    rcases s.push_cases 0x45 (s.reg r) (fun t => t.advance 2) with ⟨k, -, e⟩ | ⟨-, e⟩
    · exact absurd (congrArg State.run e) completed
    · rw [e]
      exact .inl (s.advance_pcMoved 2)
  | pop r =>
    cases h
    rcases s.pop_cases 0x46 (fun v t => (t.advance 2).setReg r v) with ⟨k, -, e⟩ | ⟨-, e⟩
    · exact absurd (congrArg State.run e) completed
    · rw [e]
      exact .inl (s.advance_pcMoved 2)
  | int r =>
    by_cases high : (s.reg r).toNat > 7
    · cases (if_pos high).symm.trans h
      exact absurd rfl completed
    · cases (if_neg high).symm.trans h
      exact .inl (s.advance_pcMoved 2)
  | div a b =>
    cases h
    rcases s.divide_cases 0xA3 (fun A B => A / B) a b with ⟨-, e⟩ | ⟨-, e⟩
    · exact absurd (congrArg State.run e) completed
    · rw [e]
      exact .inl (s.advance_pcMoved 3)
  | mod a b =>
    cases h
    rcases s.divide_cases 0xA4 (fun A B => A % B) a b with ⟨-, e⟩ | ⟨-, e⟩
    · exact absurd (congrArg State.run e) completed
    · rw [e]
      exact .inl (s.advance_pcMoved 3)
  | call r | jmp r | jeq r | jne r | jgt r | jlt r | jle r | jge r => exact .inr ⟨r, by simp⟩
  | ret | iret => exact .inr ⟨.r0, by simp⟩

/-- Values of the timer counter, the event latches and the draws of inputs. -/
structure DeviceView where
  tcnt   : Nat
  tev    : Bool
  kev    : Bool
  kbyte  : Byte
  inputs : List (List DeviceInput)
  draws  : Nat

/-- The state with these device values. -/
def State.withDevices (s : State) (d : DeviceView) : State :=
  { s with
    tcnt := d.tcnt, tev := d.tev, kev := d.kev, kbyte := d.kbyte, inputs := d.inputs, draws := d.draws }

theorem State.push_withDevices (s : State) (d : DeviceView) (op v : Byte) {done : State → State}
    (commutes : ∀ t, done (t.withDevices d) = (done t).withDevices d) :
    (s.withDevices d).push op v done = (s.push op v done).withDevices d := by
  rcases s.push_cases op v done with ⟨kind, check, e⟩ | ⟨check, e⟩ <;> rw [e]
  · exact State.push_of_fault (s := s.withDevices d) check op v done
  · exact (State.push_of_passed (s := s.withDevices d) check op v done).trans (commutes (s.pushByte v))

theorem State.pop_withDevices (s : State) (d : DeviceView) (op : Byte) {done : Byte → State → State}
    (commutes : ∀ v t, done v (t.withDevices d) = (done v t).withDevices d) :
    (s.withDevices d).pop op done = (s.pop op done).withDevices d := by
  rcases s.pop_cases op done with ⟨kind, check, e⟩ | ⟨check, e⟩ <;> rw [e]
  · exact State.pop_of_fault (s := s.withDevices d) check op done
  · exact (State.pop_of_passed (s := s.withDevices d) check op done).trans
      (commutes (s.read s.sp) (s.setSp (s.sp + 1)))

theorem State.interruptReturn_withDevices (s : State) (d : DeviceView) (op : Byte) :
    (s.withDevices d).interruptReturn op = (s.interruptReturn op).withDevices d := by
  rcases s.interruptReturn_cases op with ⟨kind, check, e⟩ | ⟨first, others, e⟩ <;> rw [e]
  · exact State.interruptReturn_of_fault (s := s.withDevices d) check op
  · exact State.interruptReturn_of_passed (s := s.withDevices d) first others op

theorem State.jumpIf_withDevices (s : State) (d : DeviceView) (cond : Bool) (r : Reg) :
    (s.withDevices d).jumpIf cond r = (s.jumpIf cond r).withDevices d := by
  cases cond <;> rfl

theorem State.divide_withDevices (s : State) (d : DeviceView) (op : Byte) (f : Byte → Byte → Byte)
    (a b : Reg) : (s.withDevices d).divide op f a b = (s.divide op f a b).withDevices d := by
  rcases s.divide_cases op f a b with ⟨zero, e⟩ | ⟨nonzero, e⟩ <;> rw [e]
  · exact State.divide_of_zero (s := s.withDevices d) zero op f a
  · exact State.divide_of_ne_zero (s := s.withDevices d) nonzero op f a

/-- Executing an instruction commutes with setting the device values: those that branch do so on what
the setting leaves alone, and the others update other fields. -/
theorem exec_withDevices (i : Instr) {s t : State} (d : DeviceView) (h : exec i s = .next t) :
    exec i (s.withDevices d) = .next (t.withDevices d) := by
  cases i with
  | nop | hlt | prn | pra | inc | dec | not | ldi | ld | st | add | sub | mul | cmp | and | or | xor
  | shl | shr => cases h; rfl
  | push r =>
    cases h
    exact congrArg Host.Outcome.next (s.push_withDevices d _ _ fun _ => rfl)
  | call r =>
    cases h
    exact congrArg Host.Outcome.next (s.push_withDevices d _ _ fun _ => rfl)
  | pop r =>
    cases h
    exact congrArg Host.Outcome.next (s.pop_withDevices d _ fun _ _ => rfl)
  | ret =>
    cases h
    exact congrArg Host.Outcome.next (s.pop_withDevices d _ fun _ _ => rfl)
  | iret =>
    cases h
    exact congrArg Host.Outcome.next (s.interruptReturn_withDevices d _)
  | jmp | jeq | jne | jgt | jlt | jle | jge =>
    cases h
    exact congrArg Host.Outcome.next (s.jumpIf_withDevices d _ _)
  | div | mod =>
    cases h
    exact congrArg Host.Outcome.next (s.divide_withDevices d _ _ _ _)
  | int r =>
    by_cases high : (s.reg r).toNat > 7
    · cases (if_pos high).symm.trans h
      exact if_pos high
    · cases (if_neg high).symm.trans h
      exact if_neg high

/-- Settles O58, which is `exec_withDevices` with the six values apart. -/
theorem instructionsDoNotSeeDeviceState : Obligations.InstructionsDoNotSeeDeviceState := by
  intro i s t tcnt tev kev kbyte inputs draws h
  exact exec_withDevices i ⟨tcnt, tev, kev, kbyte, inputs, draws⟩ h

end Sys2Proof.Machine
end
